-- ==== Sys2Proof/Word.lean ====
section
/-! DEFINITION. The word types of the block and the two-valued names its pins use. -/

namespace Sys2Proof

/-- One operand byte of a command word (30_encoding R88). -/
abbrev Byte := BitVec 8

/-- A pin identifier: an opaque 8-bit name (20_memory R52, 10_state R28). -/
abbrev PinId := BitVec 8

/-- A 40-bit command word (30_encoding R81). -/
abbrev CommandWord := BitVec 40

/-- A 64-bit response word (30_encoding R91). -/
abbrev ResponseWord := BitVec 64

/-- The home of an `S`-bit bitfield: 64 bits, of which the low `S` are the register (log 2). -/
abbrev Bitfield := BitVec 64

/-- A logic level on a pin (20_memory R58). -/
inductive Level where
  | low
  | high
deriving DecidableEq, Repr, Inhabited

/-- A pin direction (20_memory R58, R59). -/
inductive Direction where
  | output
  | input
deriving DecidableEq, Repr, Inhabited

end Sys2Proof
end

