-- ==== Sys2Proof/Syntax.lean ====
section
/-! DEFINITION. The fourteen operations, one constructor per row of spec/opcode_table.json. -/

namespace Sys2Proof

/-- The operations of the block (00_scope R11, 30_encoding R87), operands as the 8-bit fields of the
command word. There is no other operation and no no-op. -/
inductive Instr where
  /-- BEGIN: `begin(loadPin, clockEnablePin, dataPin, clockPin)`. -/
  | begin (loadPin clockEnablePin dataPin clockPin : PinId)
  /-- GETPW: `getPulseWidth()`. -/
  | getpw
  /-- SETPW: `setPulseWidth(value)`. -/
  | setpw (value : Byte)
  /-- GETDW: `getDataWidth()`. -/
  | getdw
  /-- READ: `read()`. -/
  | read
  /-- UPDATE: `update()`. -/
  | update
  /-- CHG: `hasChanged()`. -/
  | chg
  /-- CHGI: `hasChanged(id)`. -/
  | chgi (id : Byte)
  /-- STATE: `state(id)`. -/
  | state (id : Byte)
  /-- LAST: `last(id)`. -/
  | last (id : Byte)
  /-- PRESSED: `pressed(id)`. -/
  | pressed (id : Byte)
  /-- RELEASED: `released(id)`. -/
  | released (id : Byte)
  /-- GETLAST: `getLast()`. -/
  | getlast
  /-- GETCUR: `getCurrent()`. -/
  | getcur
deriving DecidableEq, Repr

end Sys2Proof
end

