-- ==== Sys2Proof/Decode.lean ====
section
/-! DEFINITION. The decoder and the encoder of command words (30_encoding R81 to R90, R94). -/

namespace Sys2Proof

/-- Why a 40-bit word is not a command word (30_encoding R89). -/
inductive Invalid where
  /-- Opcode 0x00, or 0x0F to 0xFF. -/
  | unassignedOpcode (opcode : Byte)
  /-- A bit of a must-be-zero cell is set. -/
  | mustBeZero (opcode : Byte)
deriving DecidableEq, Repr

/-- The verdict of the decoder: one operation, or invalid (30_encoding R89). -/
inductive Verdict where
  | op (i : Instr)
  | invalid (why : Invalid)
deriving DecidableEq, Repr

/-- `opcode = cmd[39:32]` (30_encoding R82). -/
def cmdOpcode (cmd : CommandWord) : Byte := cmd.extractLsb' 32 8

/-- `b3 = cmd[31:24]`. -/
def cmdB3 (cmd : CommandWord) : Byte := cmd.extractLsb' 24 8

/-- `b2 = cmd[23:16]`. -/
def cmdB2 (cmd : CommandWord) : Byte := cmd.extractLsb' 16 8

/-- `b1 = cmd[15:8]`. -/
def cmdB1 (cmd : CommandWord) : Byte := cmd.extractLsb' 8 8

/-- `b0 = cmd[7:0]`. -/
def cmdB0 (cmd : CommandWord) : Byte := cmd.extractLsb' 0 8

/-- The upper three operand bytes are zero (`hi0` of 30_encoding R90). -/
def cmdHi0 (cmd : CommandWord) : Bool := cmdB3 cmd == 0 && cmdB2 cmd == 0 && cmdB1 cmd == 0

/-- Format Z: no operand, all 32 operand bits zero (30_encoding R83). -/
def decodeZ (cmd : CommandWord) (i : Instr) : Verdict :=
  if cmdHi0 cmd && cmdB0 cmd == 0 then .op i else .invalid (.mustBeZero (cmdOpcode cmd))

/-- Formats V and I: one operand byte in bits 7:0, the other 24 operand bits zero
(30_encoding R84, R85). -/
def decodeB0 (cmd : CommandWord) (i : Byte → Instr) : Verdict :=
  if cmdHi0 cmd then .op (i (cmdB0 cmd)) else .invalid (.mustBeZero (cmdOpcode cmd))

/-- The decoder, total on 40-bit words (30_encoding R90). -/
def decode (cmd : CommandWord) : Verdict :=
  match (cmdOpcode cmd).toNat with
  | 0x01 => .op (.begin (cmdB3 cmd) (cmdB2 cmd) (cmdB1 cmd) (cmdB0 cmd))
  | 0x02 => decodeZ cmd .getpw
  | 0x03 => decodeB0 cmd .setpw
  | 0x04 => decodeZ cmd .getdw
  | 0x05 => decodeZ cmd .read
  | 0x06 => decodeZ cmd .update
  | 0x07 => decodeZ cmd .chg
  | 0x08 => decodeB0 cmd .chgi
  | 0x09 => decodeB0 cmd .state
  | 0x0A => decodeB0 cmd .last
  | 0x0B => decodeB0 cmd .pressed
  | 0x0C => decodeB0 cmd .released
  | 0x0D => decodeZ cmd .getlast
  | 0x0E => decodeZ cmd .getcur
  | _ => .invalid (.unassignedOpcode (cmdOpcode cmd))

/-- The opcode of an operation (30_encoding R87). -/
def Instr.opcode : Instr → Byte
  | .begin _ _ _ _ => 0x01
  | .getpw => 0x02
  | .setpw _ => 0x03
  | .getdw => 0x04
  | .read => 0x05
  | .update => 0x06
  | .chg => 0x07
  | .chgi _ => 0x08
  | .state _ => 0x09
  | .last _ => 0x0A
  | .pressed _ => 0x0B
  | .released _ => 0x0C
  | .getlast => 0x0D
  | .getcur => 0x0E

/-- `(opcode, b3, b2, b1, b0)` laid side by side, the opcode in the high byte (30_encoding R82). -/
def packWord (op b3 b2 b1 b0 : Byte) : CommandWord := op ++ b3 ++ b2 ++ b1 ++ b0

/-- The command word of an operation, by format P, V, I or Z (30_encoding R83 to R87). -/
def encode : Instr → CommandWord
  | .begin ld ce da ck => packWord 0x01 ld ce da ck
  | .getpw => packWord 0x02 0 0 0 0
  | .setpw value => packWord 0x03 0 0 0 value
  | .getdw => packWord 0x04 0 0 0 0
  | .read => packWord 0x05 0 0 0 0
  | .update => packWord 0x06 0 0 0 0
  | .chg => packWord 0x07 0 0 0 0
  | .chgi id => packWord 0x08 0 0 0 id
  | .state id => packWord 0x09 0 0 0 id
  | .last id => packWord 0x0A 0 0 0 id
  | .pressed id => packWord 0x0B 0 0 0 id
  | .released id => packWord 0x0C 0 0 0 id
  | .getlast => packWord 0x0D 0 0 0 0
  | .getcur => packWord 0x0E 0 0 0 0

/-- A command word as bytes, opcode first. The spec only suggests this order and no rule depends on it
(30_encoding R94; DESIGN CHOICE, safe, log 12). -/
def wordBytes (cmd : CommandWord) : List Byte :=
  [cmdOpcode cmd, cmdB3 cmd, cmdB2 cmd, cmdB1 cmd, cmdB0 cmd]

/-- The decoder on a stream of bytes in that order: the verdict on the first word and the bytes left;
nothing when fewer than five bytes are there (log 12). -/
def decodeBytes : List Byte → Option (Verdict × List Byte)
  | op :: b3 :: b2 :: b1 :: b0 :: rest => some (decode (packWord op b3 b2 b1 b0), rest)
  | _ => none

/-- The operation the decoder reads from a table row's bits, numbered as spec/opcode_table.json numbers
them: one 40-bit word, bit 0 its least significant bit; bits from `nbits` up are zero. -/
def decodeTableWord (nbits w : Nat) : Option Instr :=
  if nbits ≤ 40 then
    match decode (BitVec.ofNat 40 (w % 2 ^ nbits)) with
    | .op i => some i
    | .invalid _ => none
  else none

end Sys2Proof
end

