-- ==== Sys2Proof/Config.lean ====
section
/-! DEFINITION. What an instance fixes (00_scope R6, R8) and the free values of the environment. -/

namespace Sys2Proof

/-- `chipCount`: the number of daisy-chained registers, 1 to 8. A value outside that range cannot be
built (00_scope R6, 92 D9, 93 U7). -/
structure ChipCount where
  val : Nat
  pos : 1 ≤ val
  le_eight : val ≤ 8
deriving DecidableEq, Repr

/-- The instance `State.reset` is the reset of. DESIGN CHOICE (log 1): the spec leaves `chipCount` a
parameter; unsafe for a statement about `State.reset` alone, so statements use `State.resetOf`. -/
def Config.chipCount : ChipCount := ⟨1, by decide, by decide⟩

/-- `PW_DEFAULT`: the reset value of the pulse width, in microseconds (00_scope R8). -/
def Config.pwDefault : BitVec 8 := 5

/-- The default of SimChain's parameter `PW_MIN` (60_exceptions R210). -/
def Config.pwMinDefault : Nat := 0

/-- The default of SimChain's parameter `SER_IN` (00_scope R8). -/
def Config.serInDefault : Bool := false

/-- `TICK`: the block's time base, OPEN and used by no rule (00_scope R8, 92 D18). -/
opaque Config.tick : Nat

/-- The level the environment answers at its `n`-th free draw: a free value, under no law
(20_memory R61, 60_exceptions R210; log 4). -/
opaque Config.freeLevel : Nat → Level

/-- What SimChain's shift register holds before the first load pulse: unspecified
(60_exceptions R206; log 5). -/
opaque Config.initialChain : Bitfield

end Sys2Proof
end

