-- ==== Sys2Proof/Machine/Params.lean ====
section
/-! DEFINITION. The widths derived from `chipCount` (00_scope R7). -/

namespace Sys2Proof

/-- `W = chipCount * 8`, the bits of a sample (00_scope R7). -/
def ChipCount.dataWidth (c : ChipCount) : Nat := c.val * 8

/-- `S`, the storage width: the smallest of 8, 16, 32, 64 that has at least `W` bits (00_scope R7). -/
def ChipCount.storageWidth (c : ChipCount) : Nat :=
  if c.dataWidth ≤ 8 then 8
  else if c.dataWidth ≤ 16 then 16
  else if c.dataWidth ≤ 32 then 32
  else 64

/-- Constructing an instance: refused outside 1 to 8 (00_scope R6). -/
def ChipCount.ofNat? (n : Nat) : Option ChipCount :=
  if h : 1 ≤ n ∧ n ≤ 8 then some ⟨n, h.1, h.2⟩ else none

/-- The `S`-bit value held in a 64-bit home: its low `S` bits, zero-extended (log 2). -/
def ChipCount.toStorage (c : ChipCount) (v : Bitfield) : Bitfield :=
  (v.setWidth c.storageWidth).setWidth 64

/-- The `W`-bit value held in a 64-bit home: its low `W` bits, zero-extended (SimChain's `P` and `Q`,
60_exceptions R206). -/
def ChipCount.toData (c : ChipCount) (v : Bitfield) : Bitfield :=
  (v.setWidth c.dataWidth).setWidth 64

end Sys2Proof
end

