-- ==== Sys2Proof/Machine/State.lean ====
section
/-! DEFINITION. The state of the block and of what stands around it, the reasons a step stops, and reset. -/

namespace Sys2Proof.Machine

/-- The two operations that sample (41_sampling R130, R136). -/
inductive SampleOp where
  | read
  | update
deriving DecidableEq, Repr

/-- The five operations that take a bit index (20_memory R51). -/
inductive BitQuery where
  | chgi
  | state
  | last
  | pressed
  | released
deriving DecidableEq, Repr

/-- A DigitalIO call of the engine (20_memory R58 to R63); a read carries the level answered. -/
inductive Event where
  | pinMode (pin : PinId) (dir : Direction)
  | pinWrite (pin : PinId) (level : Level)
  | pinRead (pin : PinId) (answer : Level)
  | sleep (micros : BitVec 8)
deriving DecidableEq, Repr

/-- Sparse data by pin, strictly rising keys; an unlisted pin is `unset` (10_state R33; log 11). -/
abbrev PinMap (α : Type) := List (Nat × α)

/-- The four pin identifiers, in the order of `begin`'s arguments (10_state R28). -/
structure Pins where
  load : PinId
  clken : PinId
  data : PinId
  clk : PinId
deriving DecidableEq, Repr

/-- The reference chain (60_exceptions R206 to R210): `inputs` is `P`, `shift` is `Q`, `garbled` says that
a too short `Sleep` was seen since the last load pulse (log 6). -/
structure SimChain where
  inputs : Bitfield
  shift : Bitfield
  pwMin : Nat
  serIn : Bool
  garbled : Bool
deriving DecidableEq, Repr

/-- What answers a `PinRead`: the unconstrained oracle (20_memory R61), or SimChain
(60_exceptions R205). -/
inductive Environment where
  | oracle
  | simChain (chain : SimChain)
deriving DecidableEq, Repr

/-- Which event of the `READ` list comes next (10_state R34, R35; 41_sampling R131, R132); `store` is
step 5, after the last event. -/
inductive SeqPos where
  | clkenHigh
  | loadLow
  | loadSleep
  | loadHigh
  | clkenLow
  | readBit
  | clockHigh
  | clockSleep
  | clockLow
  | store
deriving DecidableEq, Repr

/-- The hidden state of a `READ` or `UPDATE` in flight: which it is, the position, `ACC` and `I`
(10_state R34). -/
structure InFlight where
  op : SampleOp
  pos : SeqPos
  acc : Bitfield
  i : Nat
deriving DecidableEq, Repr

/-- The engine: idle, or with an operation in flight (10_state R34, R37). -/
inductive Engine where
  | idle
  | busy (f : InFlight)
deriving DecidableEq, Repr

/-- What the outside does next (60_exceptions R212; log 7, log 8). -/
inductive HostAction where
  /-- Issue a command word and wait for the response: one atomic step (92 D21). -/
  | command (w : CommandWord)
  /-- Issue a command word without waiting: a `READ` or `UPDATE` then runs event by event
  (60_exceptions R194). -/
  | post (w : CommandWord)
  /-- The external reset (70_reset_and_hazards R220). -/
  | reset
  /-- The test sets SimChain's parallel inputs between operations (60_exceptions R206). -/
  | inputs (p : Bitfield)
  /-- Nothing is issued while one event of an operation in flight passes (10_state R35). -/
  | wait
deriving DecidableEq, Repr

/-- The model faults (60_exceptions R190, R196): verdicts about the host's program, on which the run
ends. All are safe: the source defines no behaviour there (92 D24). -/
inductive Fault where
  /-- `F_INDEX_RANGE`: raised by CHGI, STATE, LAST, PRESSED, RELEASED when `id >= W` (R191). Safe. -/
  | indexRange (op : BitQuery) (id : Byte)
  /-- `F_NOT_BEGUN`: raised by READ and UPDATE when `BEGUN = 0` (R192), and in states no run reaches
  where `BEGUN = 1` and a pin register holds no value (log 3). Safe. -/
  | notBegun (op : SampleOp)
  /-- `F_REBEGIN`: raised by BEGIN when `BEGUN = 1` (R193). Safe. -/
  | rebegin
  /-- `F_REENTRANT`: raised by the command port when an operation is issued while a READ or UPDATE is
  in flight (R194). Safe. -/
  | reentrant
  /-- `F_ILLEGAL_CMD`: raised by the command port when the word decodes to invalid (R195). Safe. -/
  | illegalCmd (word : CommandWord)
deriving DecidableEq, Repr

/-- The reasons the model gives no meaning to a step. -/
inductive Refusal where
  /-- Raised by exec's arm of an instruction that has no meaning yet (there is none). Safe. -/
  | notModelled (mnemonic : String)
  /-- Raised by BEGIN under SimChain when the four pins are not pairwise different: SimChain refuses
  such a BEGIN (60_exceptions R206). Safe. -/
  | simChainPins
deriving DecidableEq, Repr

/-- The state: the block's registers (10_state R20), the engine, what the outside has seen of it, and the
outside itself. -/
structure State where
  /-- The parameter `chipCount` (00_scope R6): no step writes it (log 1). -/
  chips : ChipCount
  /-- `CUR` (10_state R21): the low `S` bits. -/
  cur : Bitfield
  /-- `LAST` (10_state R22): the low `S` bits. -/
  last : Bitfield
  /-- `PW` (10_state R27), in microseconds. -/
  pw : BitVec 8
  /-- `PIN_LOAD` (10_state R28); no value until BEGIN (R31). -/
  pinLoad : Option PinId
  /-- `PIN_CLKEN` (10_state R28); no value until BEGIN (R31). -/
  pinClken : Option PinId
  /-- `PIN_DATA` (10_state R28); no value until BEGIN (R31). -/
  pinData : Option PinId
  /-- `PIN_CLK` (10_state R28); no value until BEGIN (R31). -/
  pinClk : Option PinId
  /-- `BEGUN` (10_state R29). -/
  begun : Bool
  /-- Idle, or an operation in flight with `ACC` and `I` (10_state R34). -/
  engine : Engine
  /-- The event trace, oldest first (20_memory R64). -/
  trace : List Event
  /-- The responses given, oldest first (30_encoding R91). -/
  responses : List ResponseWord
  /-- `DIR[p]` of the pin shadow (10_state R33). -/
  dirs : PinMap Direction
  /-- `OUT[p]` of the pin shadow (10_state R33). -/
  outs : PinMap Level
  /-- What answers a `PinRead` (60_exceptions R205). -/
  env : Environment
  /-- The environment's next free answers, as an input (20_memory R61; log 4). -/
  answers : List Level
  /-- How many free values were drawn after `answers` ran out (log 4). -/
  draws : Nat
  /-- What the host does next, oldest first (log 8). -/
  inbox : List HostAction
deriving DecidableEq, Repr

/-- Instance `c` right after reset (10_state R37, 70_reset_and_hazards R221). -/
def State.resetOf (c : ChipCount) : State where
  chips := c
  cur := 0
  last := 0
  pw := Config.pwDefault
  pinLoad := none
  pinClken := none
  pinData := none
  pinClk := none
  begun := false
  engine := .idle
  trace := []
  responses := []
  dirs := []
  outs := []
  env := .oracle
  answers := []
  draws := 0
  inbox := []

/-- The machine right after reset, for the instance `Config.chipCount` (log 1). -/
def State.reset : State := State.resetOf Config.chipCount

end Sys2Proof.Machine
end

