-- ==== Sys2Proof/Machine/Environment.lean ====
section
/-! DEFINITION. The environment's side: the pin shadow and the reference chain SimChain. -/

namespace Sys2Proof.Machine

/-- What a pin map holds for key `k`; `none` is `unset` (10_state R33). -/
def mapGet {α : Type} (k : Nat) : PinMap α → Option α
  | [] => none
  | (j, x) :: m => if j = k then some x else mapGet k m

/-- Write key `k`, keeping the keys strictly rising. -/
def mapPut {α : Type} (k : Nat) (v : α) : PinMap α → PinMap α
  | [] => [(k, v)]
  | (j, x) :: m =>
    if k < j then (k, v) :: (j, x) :: m
    else if k = j then (k, v) :: m
    else (j, x) :: mapPut k v m

/-- The canonical form of a pin map: strictly rising keys, each the number of a pin (20_memory R52). -/
abbrev mapWf {α : Type} (m : PinMap α) : Prop :=
  m.Pairwise (fun a b => a.1 < b.1) ∧ ∀ e ∈ m, e.1 < 256

/-- `DIR[p]` after an event: `PinMode(p, d)` writes it (10_state R33). -/
def noteDir (e : Event) (m : PinMap Direction) : PinMap Direction :=
  match e with
  | .pinMode pin dir => mapPut pin.toNat dir m
  | .pinWrite _ _ => m
  | .pinRead _ _ => m
  | .sleep _ => m

/-- `OUT[p]` after an event: `PinWrite(p, l)` writes it (10_state R33). -/
def noteOut (e : Event) (m : PinMap Level) : PinMap Level :=
  match e with
  | .pinMode _ _ => m
  | .pinWrite pin level => mapPut pin.toNat level m
  | .pinRead _ _ => m
  | .sleep _ => m

/-- The level that stands for a bit: `HIGH` for 1 (20_memory R62). -/
def levelOf (b : Bool) : Level := if b then .high else .low

/-- SimChain load: `Q <- P` (60_exceptions R207); a load pulse also begins a new `READ`, so what an
earlier one garbled is past (R210; log 6). -/
def SimChain.loadPulse (c : ChipCount) (m : SimChain) : SimChain :=
  { m with shift := c.toData m.inputs, garbled := false }

/-- SimChain shift: `Q <- ((Q << 1) | SER_IN) mod 2^W` (60_exceptions R209). -/
def SimChain.shiftOnce (c : ChipCount) (m : SimChain) : SimChain :=
  { m with shift := c.toData ((m.shift <<< 1) ||| (BitVec.ofBool m.serIn).setWidth 64) }

/-- A rising clock edge while shifting is permitted, seen from the levels before the event: `OUT[ck]` is
`LOW` and `OUT[ce]` is `LOW` (60_exceptions R209). -/
def shiftPermitted (p : Pins) (outs : PinMap Level) : Bool :=
  mapGet p.clk.toNat outs == some .low && mapGet p.clken.toNat outs == some .low

/-- SimChain's answer to an event, `outs` being the levels before it (60_exceptions R207, R209, R210). -/
def SimChain.react (c : ChipCount) (p : Pins) (outs : PinMap Level) (e : Event) (m : SimChain) :
    SimChain :=
  match e with
  | .pinMode _ _ => m
  | .pinWrite pin .low => if pin = p.load then m.loadPulse c else m
  | .pinWrite pin .high => if pin = p.clk ∧ shiftPermitted p outs = true then m.shiftOnce c else m
  | .pinRead _ _ => m
  | .sleep d => if d.toNat < m.pwMin then { m with garbled := true } else m

/-- SimChain data out: `HIGH` if `Q[W-1] = 1` (60_exceptions R208). -/
def SimChain.dataOut (c : ChipCount) (m : SimChain) : Level :=
  levelOf (m.shift.getLsbD (c.dataWidth - 1))

/-- A SimChain with inputs `P` whose shift register is still unspecified (60_exceptions R206, R210). -/
def SimChain.fresh (p : Bitfield) : SimChain where
  inputs := p
  shift := Config.initialChain
  pwMin := Config.pwMinDefault
  serIn := Config.serInDefault
  garbled := false

/-- The environment's answer to an event: the oracle has no state (20_memory R61). -/
def Environment.react (c : ChipCount) (p : Pins) (outs : PinMap Level) (e : Event) :
    Environment → Environment
  | .oracle => .oracle
  | .simChain m => .simChain (m.react c p outs e)

/-- Whether the environment takes a BEGIN of these pins: SimChain refuses pins that are not pairwise
different, the oracle takes any (60_exceptions R206, 92 D30). -/
def Environment.accepts (p : Pins) : Environment → Bool
  | .oracle => true
  | .simChain _ => decide ([p.load, p.clken, p.data, p.clk].Nodup)

/-- The test sets the parallel inputs; the oracle has none (60_exceptions R206). -/
def Environment.setInputs (c : ChipCount) (v : Bitfield) : Environment → Environment
  | .oracle => .oracle
  | .simChain m => .simChain { m with inputs := c.toData v }

end Sys2Proof.Machine
end

