-- ==== Sys2Proof/Machine/Ops.lean ====
section
/-! DEFINITION. The named operations over the state: registers, pin events, responses, faults, reset. -/

namespace Sys2Proof.Machine

/-- `CUR`, all `S` bits (10_state R21). -/
def State.curVal (s : State) : Bitfield := s.chips.toStorage s.cur

/-- `LAST`, all `S` bits (10_state R22). -/
def State.lastVal (s : State) : Bitfield := s.chips.toStorage s.last

/-- `CUR <- v` (41_sampling R130 step 5). -/
def State.setCur (v : Bitfield) (s : State) : State := { s with cur := s.chips.toStorage v }

/-- `LAST <- v` (41_sampling R130 step 1). -/
def State.setLast (v : Bitfield) (s : State) : State := { s with last := s.chips.toStorage v }

/-- `PW <- v` (40_config_ops R112). -/
def State.setPw (v : BitVec 8) (s : State) : State := { s with pw := v }

/-- The four pin registers are written together, by BEGIN alone (10_state R28). -/
def State.setPins (p : Pins) (s : State) : State :=
  { s with pinLoad := some p.load, pinClken := some p.clken, pinData := some p.data, pinClk := some p.clk }

/-- `BEGUN <- 1` (10_state R29). -/
def State.setBegun (s : State) : State := { s with begun := true }

/-- The engine's sequencer position (10_state R34). -/
def State.setEngine (e : Engine) (s : State) : State := { s with engine := e }

/-- The pins a sampling operation drives: those `BEGIN` has written, and nothing while `BEGUN = 0`
(10_state R29, R31; log 3). -/
def State.pinSet (s : State) : Option Pins :=
  match s.begun, s.pinLoad, s.pinClken, s.pinData, s.pinClk with
  | true, some ld, some ce, some da, some ck => some ⟨ld, ce, da, ck⟩
  | _, _, _, _, _ => none

/-- One event: it joins the trace, the pin shadow follows it, the environment answers it
(20_memory R58, R64; 10_state R33). -/
def State.emit (p : Pins) (e : Event) (s : State) : State :=
  { s with
    trace := s.trace ++ [e]
    dirs := noteDir e s.dirs
    outs := noteOut e s.outs
    env := s.env.react s.chips p s.outs e }

/-- A level under no law: the next of the environment's answers, else a free value
(20_memory R61; log 4). -/
def State.draw (s : State) : Level × State :=
  match s.answers with
  | l :: rest => (l, { s with answers := rest })
  | [] => (Config.freeLevel s.draws, { s with draws := s.draws + 1 })

/-- The level on the data line: the oracle's, SimChain's, or a free draw where SimChain is garbled
(20_memory R61; 60_exceptions R208, R210). -/
def State.dataLevel (s : State) : Level × State :=
  match s.env with
  | .oracle => s.draw
  | .simChain m => if m.garbled then s.draw else (m.dataOut s.chips, s)

/-- `PinRead(PIN_DATA)`: the level answered, and the state with the event (20_memory R61). -/
def State.pinRead (p : Pins) (s : State) : Level × State :=
  (s.dataLevel.1, s.dataLevel.2.emit p (.pinRead p.data s.dataLevel.1))

/-- `lvl`: `HIGH` is 1, `LOW` is 0 (20_memory R62). -/
def lvl : Level → Bool
  | .high => true
  | .low => false

/-- `ACC <- ACC | (b << n)` (20_memory R70). -/
def insertBit (acc : Bitfield) (n : Nat) (b : Bool) : Bitfield :=
  acc ||| ((BitVec.ofBool b).setWidth 64 <<< n)

/-- `respond(v)`: one 64-bit response word (30_encoding R91). -/
def State.respond (v : ResponseWord) (s : State) : State := { s with responses := s.responses ++ [v] }

/-- The response word of an operation without a result: it only marks completion (30_encoding R91). -/
def noResult : ResponseWord := 0

/-- The response word of a Boolean: 1 or 0 in bit 0 (30_encoding R91, 00_scope R17). -/
def boolWord (b : Bool) : ResponseWord := if b then 1 else 0

/-- `fault(F)`, the one way a contract violation ends: no state is saved, no vector taken, no event
emitted, no response given, and the run ends (60_exceptions R190, R199, R200). -/
def raise (f : Fault) : Host.Outcome State Fault Refusal := .fault f

/-- The label of a fault in the closed list (60_exceptions R196). -/
def Fault.code : Fault → Nat
  | .indexRange _ _ => 1
  | .notBegun _ => 2
  | .rebegin => 3
  | .reentrant => 4
  | .illegalCmd _ => 5

/-- The external reset: the block as a new instance, an operation in flight abandoned, the outside as it
was (70_reset_and_hazards R220 to R223; log 9). -/
def State.applyReset (s : State) : State :=
  { State.resetOf s.chips with env := s.env, answers := s.answers, draws := s.draws, inbox := s.inbox }

/-- The test sets SimChain's parallel inputs (60_exceptions R206). -/
def State.setInputs (v : Bitfield) (s : State) : State := { s with env := s.env.setInputs s.chips v }

/-- The host's next actions (log 8). -/
def State.setInbox (l : List HostAction) (s : State) : State := { s with inbox := l }

/-- A command word presented at the command port of an idle engine: the next step takes it
(92 D1; log 8). -/
def State.present (w : CommandWord) (s : State) : State :=
  { s with engine := .idle, inbox := .command w :: s.inbox }

/-- The least time an event takes, in microseconds (20_memory R63, 70_reset_and_hazards R240). -/
def Event.minMicros : Event → Nat
  | .pinMode _ _ => 0
  | .pinWrite _ _ => 0
  | .pinRead _ _ => 0
  | .sleep d => d.toNat

/-- A pin call takes unspecified time; a `Sleep` is none (70_reset_and_hazards R240). -/
def Event.isPinCall : Event → Bool
  | .pinMode _ _ => true
  | .pinWrite _ _ => true
  | .pinRead _ _ => true
  | .sleep _ => false

end Sys2Proof.Machine
end

