-- ==== Sys2Proof/Machine/Configuration.lean ====
section
/-! DEFINITION. The meanings of BEGIN, GETPW, SETPW, GETDW (40_config_ops). -/

namespace Sys2Proof.Machine

/-- The six events of BEGIN, in order (40_config_ops R110). -/
def beginEvents (p : Pins) : List Event :=
  [.pinMode p.load .output, .pinMode p.clken .output, .pinMode p.data .input, .pinMode p.clk .output,
   .pinWrite p.clk .low, .pinWrite p.load .high]

/-- A list of events, one after another (20_memory R64). -/
def State.emitAll (p : Pins) : List Event → State → State
  | [], s => s
  | e :: es, s => State.emitAll p es (s.emit p e)

/-- BEGIN: the BEGUN test, then the writes and the events (40_config_ops R110, R114); under SimChain
pins that are not pairwise different are refused (60_exceptions R206). -/
def execBegin (ld ce da ck : PinId) (s : State) : Host.Outcome State Fault Refusal :=
  if s.begun then raise .rebegin
  else if s.env.accepts ⟨ld, ce, da, ck⟩ then
    .next ((((s.setPins ⟨ld, ce, da, ck⟩).emitAll ⟨ld, ce, da, ck⟩
      (beginEvents ⟨ld, ce, da, ck⟩)).setBegun).respond noResult)
  else .refused .simChainPins

/-- GETPW: the response word is `zext_64(PW)` (40_config_ops R111). -/
def execGetpw (s : State) : Host.Outcome State Fault Refusal := .next (s.respond (s.pw.setWidth 64))

/-- SETPW: `PW <- value`, any value, before or after BEGIN (40_config_ops R112, 90_conflicts C2). -/
def execSetpw (value : Byte) (s : State) : Host.Outcome State Fault Refusal :=
  .next ((s.setPw value).respond noResult)

/-- GETDW: the response word is `W` (40_config_ops R113). -/
def execGetdw (s : State) : Host.Outcome State Fault Refusal :=
  .next (s.respond (BitVec.ofNat 64 s.chips.dataWidth))

end Sys2Proof.Machine
end

