-- ==== Sys2Proof/Machine/Flags.lean ====
section
/-! DEFINITION. The predicates of the change tracker: computed when asked, never latched (10_state R36). -/

namespace Sys2Proof.Machine

/-- `CUR[id]` (42_queries R162). -/
def State.curBit (s : State) (id : Nat) : Bool := s.curVal.getLsbD id

/-- `LAST[id]` (42_queries R163). -/
def State.lastBit (s : State) (id : Nat) : Bool := s.lastVal.getLsbD id

/-- `LAST != CUR`, all `S` bits (42_queries R160). -/
def State.changed (s : State) : Bool := s.lastVal != s.curVal

/-- `CUR[id] != LAST[id]` (42_queries R161). -/
def State.bitChanged (s : State) (id : Nat) : Bool := s.curBit id != s.lastBit id

/-- A rising edge: `CUR[id] = 1` and `LAST[id] = 0` (42_queries R164). -/
def State.bitPressed (s : State) (id : Nat) : Bool := s.curBit id && !s.lastBit id

/-- A falling edge: `CUR[id] = 0` and `LAST[id] = 1` (42_queries R165). -/
def State.bitReleased (s : State) (id : Nat) : Bool := !s.curBit id && s.lastBit id

/-- The set of pressed bits, restricted to bits `W-1..0` (42_queries R169). -/
def State.pressedSet (s : State) : Bitfield := s.chips.toData (s.curVal &&& ~~~s.lastVal)

/-- The set of released bits, restricted to bits `W-1..0` (42_queries R169). -/
def State.releasedSet (s : State) : Bitfield := s.chips.toData (~~~s.curVal &&& s.lastVal)

end Sys2Proof.Machine
end

