-- ==== Sys2Proof/Machine/Operands.lean ====
section
/-! DEFINITION. The one operand form that is checked: the bit index. -/

namespace Sys2Proof.Machine

/-- The index check, the same in all five single-bit operations and first: `id` is compared with `W` as
an unsigned number; `id >= W` faults (42_queries R170). -/
def withIndex (q : BitQuery) (id : Byte) (s : State)
    (k : Nat → Host.Outcome State Fault Refusal) : Host.Outcome State Fault Refusal :=
  if s.chips.dataWidth ≤ id.toNat then raise (.indexRange q id) else k id.toNat

end Sys2Proof.Machine
end

