-- ==== Sys2Proof/Machine/Queries.lean ====
section
/-! DEFINITION. The meanings of the eight queries (42_queries): they write nothing but the response. -/

namespace Sys2Proof.Machine

/-- A single-bit query: the index check, then one Boolean (42_queries R161 to R165, R170). -/
def answerBit (q : BitQuery) (id : Byte) (s : State) (f : Nat → Bool) :
    Host.Outcome State Fault Refusal :=
  withIndex q id s fun n => .next (s.respond (boolWord (f n)))

/-- CHG (42_queries R160). -/
def execChg (s : State) : Host.Outcome State Fault Refusal := .next (s.respond (boolWord s.changed))

/-- CHGI (42_queries R161). -/
def execChgi (id : Byte) (s : State) : Host.Outcome State Fault Refusal :=
  answerBit .chgi id s s.bitChanged

/-- STATE (42_queries R162). -/
def execState (id : Byte) (s : State) : Host.Outcome State Fault Refusal :=
  answerBit .state id s s.curBit

/-- The operation LAST (42_queries R163). -/
def execLast (id : Byte) (s : State) : Host.Outcome State Fault Refusal :=
  answerBit .last id s s.lastBit

/-- PRESSED (42_queries R164). -/
def execPressed (id : Byte) (s : State) : Host.Outcome State Fault Refusal :=
  answerBit .pressed id s s.bitPressed

/-- RELEASED (42_queries R165). -/
def execReleased (id : Byte) (s : State) : Host.Outcome State Fault Refusal :=
  answerBit .released id s s.bitReleased

/-- GETLAST: the response word is `zext_64(LAST)` (42_queries R166). -/
def execGetlast (s : State) : Host.Outcome State Fault Refusal := .next (s.respond s.lastVal)

/-- GETCUR: the response word is `zext_64(CUR)` (42_queries R167). -/
def execGetcur (s : State) : Host.Outcome State Fault Refusal := .next (s.respond s.curVal)

end Sys2Proof.Machine
end

