-- ==== Sys2Proof/Machine/Sampling.lean ====
section
/-! DEFINITION. The sampling protocol, and the meanings of READ and UPDATE (41_sampling). -/

namespace Sys2Proof.Machine

/-- The load phase, step 3: five events (41_sampling R131). -/
def loadPhase (p : Pins) (s : State) : State :=
  ((((s.emit p (.pinWrite p.clken .high)).emit p (.pinWrite p.load .low)).emit p (.sleep s.pw)).emit p
    (.pinWrite p.load .high)).emit p (.pinWrite p.clken .low)

/-- One clock pulse, step 4c: high for `PW` microseconds, then low (41_sampling R132). -/
def clockPulse (p : Pins) (s : State) : State :=
  ((s.emit p (.pinWrite p.clk .high)).emit p (.sleep s.pw)).emit p (.pinWrite p.clk .low)

/-- The shift loop, step 4, with `n + 1` iterations left: the iteration numbered `I` leaves
`n = W - 1 - I`, which is where its bit goes (41_sampling R132). Gives `ACC` and the state. -/
def shiftLoop (p : Pins) : Nat → Bitfield → State → Bitfield × State
  | 0, acc, s => (acc, s)
  | n + 1, acc, s =>
    shiftLoop p n (insertBit acc n (lvl (s.pinRead p).1)) (clockPulse p (s.pinRead p).2)

/-- Steps 1 to 5 of the sampling algorithm (41_sampling R130). -/
def sample (p : Pins) (s : State) : State :=
  let r := shiftLoop p s.chips.dataWidth 0 (loadPhase p (s.setLast s.curVal))
  r.2.setCur r.1

/-- What a sampling operation answers, from the state it leaves: READ the sample, UPDATE whether it
differs from the one before (41_sampling R130, R136). -/
def sampleResult (op : SampleOp) (s : State) : ResponseWord :=
  match op with
  | .read => s.curVal
  | .update => boolWord (s.curVal != s.lastVal)

/-- A whole sampling operation in one step (41_sampling R130, R135, R136): the `BEGUN` test comes before
step 1. -/
def runSample (op : SampleOp) (s : State) : Host.Outcome State Fault Refusal :=
  match s.pinSet with
  | none => raise (.notBegun op)
  | some p => .next ((sample p s).respond (sampleResult op (sample p s)))

/-- READ (41_sampling R130). -/
def execRead (s : State) : Host.Outcome State Fault Refusal := runSample .read s

/-- UPDATE: READ's state changes and events, then the comparison (41_sampling R136). -/
def execUpdate (s : State) : Host.Outcome State Fault Refusal := runSample .update s

end Sys2Proof.Machine
end

