-- ==== Sys2Proof/Machine/Dispatch.lean ====
section
/-! DEFINITION. One operation at the operation level: each constructor to its meaning. -/

namespace Sys2Proof.Machine

def exec (i : Instr) (s : State) : Host.Outcome State Fault Refusal :=
  match i with
  | .begin ld ce da ck => Sys2Proof.Machine.execBegin ld ce da ck s
  | .getpw => Sys2Proof.Machine.execGetpw s
  | .setpw value => Sys2Proof.Machine.execSetpw value s
  | .getdw => Sys2Proof.Machine.execGetdw s
  | .read => Sys2Proof.Machine.execRead s
  | .update => Sys2Proof.Machine.execUpdate s
  | .chg => Sys2Proof.Machine.execChg s
  | .chgi id => Sys2Proof.Machine.execChgi id s
  | .state id => Sys2Proof.Machine.execState id s
  | .last id => Sys2Proof.Machine.execLast id s
  | .pressed id => Sys2Proof.Machine.execPressed id s
  | .released id => Sys2Proof.Machine.execReleased id s
  | .getlast => Sys2Proof.Machine.execGetlast s
  | .getcur => Sys2Proof.Machine.execGetcur s

end Sys2Proof.Machine
end

