-- ==== Sys2Proof/Machine/Sequencer.lean ====
section
/-! DEFINITION. A READ or UPDATE run event by event, for a host that does not wait (10_state R34, R35). -/

namespace Sys2Proof.Machine

/-- The sampling operations, which stay in flight when the host does not wait; every other operation is
complete before its response is given (40_config_ops R114, 42_queries R168). -/
def sampleOp : Instr → Option SampleOp
  | .begin _ _ _ _ => none
  | .getpw => none
  | .setpw _ => none
  | .getdw => none
  | .read => some .read
  | .update => some .update
  | .chg => none
  | .chgi _ => none
  | .state _ => none
  | .last _ => none
  | .pressed _ => none
  | .released _ => none
  | .getlast => none
  | .getcur => none

/-- Begin a sampling operation: the `BEGUN` test, then steps 1 and 2 (41_sampling R130). -/
def startSample (op : SampleOp) (s : State) : Host.Outcome State Fault Refusal :=
  match s.pinSet with
  | none => raise (.notBegun op)
  | some _ => .next ((s.setLast s.curVal).setEngine (.busy ⟨op, .clkenHigh, 0, 0⟩))

/-- The sequencer's position after an event (10_state R34). -/
def State.goto (f : InFlight) (pos : SeqPos) (s : State) : State := s.setEngine (.busy { f with pos := pos })

/-- Step 4a and 4b of iteration `I`: the read, and its bit at position `W-1-I` (41_sampling R132). -/
def takeBit (p : Pins) (f : InFlight) (s : State) : State :=
  (s.pinRead p).2.setEngine (.busy { f with
    pos := .clockHigh
    acc := insertBit f.acc (s.chips.dataWidth - 1 - f.i) (lvl (s.pinRead p).1) })

/-- The falling edge that ends iteration `I`: on to the next, or to step 5 (41_sampling R132). -/
def endPulse (p : Pins) (f : InFlight) (s : State) : State :=
  (s.emit p (.pinWrite p.clk .low)).setEngine (.busy { f with
    i := f.i + 1
    pos := if f.i + 1 < s.chips.dataWidth then .readBit else .store })

/-- Step 5 and the response; the engine is idle again (41_sampling R130, R136). -/
def finishSample (f : InFlight) (s : State) : State :=
  let t := (s.setCur f.acc).setEngine .idle
  t.respond (sampleResult f.op t)

/-- One position of the sequencer: one event, or step 5 (10_state R35, 41_sampling R133). -/
def runPosition (p : Pins) (f : InFlight) (s : State) : State :=
  match f.pos with
  | .clkenHigh => (s.emit p (.pinWrite p.clken .high)).goto f .loadLow
  | .loadLow => (s.emit p (.pinWrite p.load .low)).goto f .loadSleep
  | .loadSleep => (s.emit p (.sleep s.pw)).goto f .loadHigh
  | .loadHigh => (s.emit p (.pinWrite p.load .high)).goto f .clkenLow
  | .clkenLow => (s.emit p (.pinWrite p.clken .low)).goto f .readBit
  | .readBit => takeBit p f s
  | .clockHigh => (s.emit p (.pinWrite p.clk .high)).goto f .clockSleep
  | .clockSleep => (s.emit p (.sleep s.pw)).goto f .clockLow
  | .clockLow => endPulse p f s
  | .store => finishSample f s

/-- A step of an operation in flight. An operation is in flight only after BEGIN, so the fault is for
states no run reaches (log 3). -/
def advanceSample (f : InFlight) (s : State) : Host.Outcome State Fault Refusal :=
  match s.pinSet with
  | none => raise (.notBegun f.op)
  | some p => .next (runPosition p f s)

end Sys2Proof.Machine
end

