-- ==== Sys2Proof/Machine/Port.lean ====
section
/-! DEFINITION. The command port: what one host action does, in the check order of 60_exceptions R198. -/

namespace Sys2Proof.Machine

/-- A command word at the port of an idle engine: decode, then the whole operation
(60_exceptions R195, R198; 92 D21). -/
def issue (w : CommandWord) (s : State) : Host.Outcome State Fault Refusal :=
  match decode w with
  | .op i => exec i s
  | .invalid _ => raise (.illegalCmd w)

/-- The same for a host that does not wait: a sampling operation only begins (60_exceptions R194). -/
def post (w : CommandWord) (s : State) : Host.Outcome State Fault Refusal :=
  match decode w with
  | .op i =>
    match sampleOp i with
    | some op => startSample op s
    | none => exec i s
  | .invalid _ => raise (.illegalCmd w)

/-- A step with an operation in flight: a word issued is `F_REENTRANT`, whatever it is; a reset abandons
the operation; the inputs are constant during a READ and wait; else the next event happens
(60_exceptions R194, R198, R206; 70_reset_and_hazards R220). -/
def stepBusy (f : InFlight) (s : State) : Host.Outcome State Fault Refusal :=
  match s.inbox with
  | [] => advanceSample f s
  | .command _ :: _ => raise .reentrant
  | .post _ :: _ => raise .reentrant
  | .reset :: rest => .next (s.setInbox rest).applyReset
  | .inputs _ :: _ => advanceSample f s
  | .wait :: rest => advanceSample f (s.setInbox rest)

/-- A step of an idle engine: the host's next action, or nothing (60_exceptions R212; log 8). -/
def stepIdle (s : State) : Host.Outcome State Fault Refusal :=
  match s.inbox with
  | [] => .next s
  | .command w :: rest => issue w (s.setInbox rest)
  | .post w :: rest => post w (s.setInbox rest)
  | .reset :: rest => .next (s.setInbox rest).applyReset
  | .inputs v :: rest => .next ((s.setInbox rest).setInputs v)
  | .wait :: rest => .next (s.setInbox rest)

/-- One step of the machine (60_exceptions R198). -/
def advance (s : State) : Host.Outcome State Fault Refusal :=
  match s.engine with
  | .idle => stepIdle s
  | .busy f => stepBusy f s

end Sys2Proof.Machine
end

