-- ==== Sys2Proof/Machine/Step.lean ====
section
/-! DEFINITION. The machine's step, and placing a command word where the next step takes it. -/

namespace Sys2Proof.Machine

/-- One step (Sys2Proof.Machine.advance says it all). -/
def step (s : State) : Host.Outcome State Fault Refusal := advance s

/-- The command word `w` at the head of the command port of an idle engine (log 8); a word of the table
is `nbits` = 40 bits, and bits from `nbits` up are zero. -/
def State.withFetchWord (s : State) (nbits w : Nat) : State :=
  s.present (BitVec.ofNat 40 (w % 2 ^ nbits))

end Sys2Proof.Machine
end

