-- ==== Sys2Proof/Machine/Text.lean ====
section
/-! DEFINITION. The textual syntax of programs (30_encoding R92), on lists of characters. -/

namespace Sys2Proof.Machine

/-- The tokens of a line. -/
inductive Token where
  | word (chars : List Char)
  | lpar
  | rpar
  | comma
  | arrow
  | bad (c : Char)
deriving DecidableEq, Repr

/-- Letters and digits make up names and numbers. -/
def isWordChar (c : Char) : Bool :=
  let n := c.toNat
  (48 ≤ n && n ≤ 57) || (65 ≤ n && n ≤ 90) || (97 ≤ n && n ≤ 122)

/-- The word read so far, as a token. -/
def flushWord (w : List Char) : List Token := if w.isEmpty then [] else [.word w]

/-- The tokens of one line; two dashes begin a comment to the end of it (R92). -/
def lexLine (w : List Char) : List Char → List Token
  | [] => flushWord w
  | '-' :: '-' :: _ => flushWord w
  | '-' :: '>' :: cs => flushWord w ++ .arrow :: lexLine [] cs
  | c :: cs =>
    if isWordChar c then lexLine (w ++ [c]) cs
    else if c = ' ' then flushWord w ++ lexLine [] cs
    else if c = '(' then flushWord w ++ .lpar :: lexLine [] cs
    else if c = ')' then flushWord w ++ .rpar :: lexLine [] cs
    else if c = ',' then flushWord w ++ .comma :: lexLine [] cs
    else flushWord w ++ .bad c :: lexLine [] cs

/-- The value of one digit in base 10 or 16, a letter in either case (log 13). -/
def digitValue (base : Nat) (c : Char) : Option Nat :=
  let n := c.toNat
  let v :=
    if 48 ≤ n && n ≤ 57 then n - 48
    else if 65 ≤ n && n ≤ 70 then n - 55
    else if 97 ≤ n && n ≤ 102 then n - 87
    else base
  if v < base then some v else none

/-- The digits of a number, most significant first. -/
def digitsValue (base acc : Nat) : List Char → Option Nat
  | [] => some acc
  | c :: cs =>
    match digitValue base c with
    | some v => digitsValue base (acc * base + v) cs
    | none => none

/-- An unsigned number, decimal or `0x` hexadecimal (R92). -/
def numberValue : List Char → Option Nat
  | [] => none
  | ['0', 'x'] => none
  | '0' :: 'x' :: cs => digitsValue 16 0 cs
  | cs => digitsValue 10 0 cs

/-- One operand: an unsigned number that fits its 8-bit field (30_encoding R88; log 13). -/
def operandValue (w : List Char) : Option Byte :=
  match numberValue w with
  | some n => if n < 256 then some (BitVec.ofNat 8 n) else none
  | none => none

/-- Operands after the first: each behind a comma. -/
def moreOperands : List Token → Option (List Byte)
  | [] => some []
  | .comma :: .word w :: ts =>
    match operandValue w, moreOperands ts with
    | some b, some bs => some (b :: bs)
    | _, _ => none
  | _ => none

/-- The operands of a line, separated by commas (R92). -/
def operandList : List Token → Option (List Byte)
  | [] => some []
  | .word w :: ts => moreOperands (.comma :: .word w :: ts)
  | _ => none

/-- The operation of the source's call `name(args)`; `hasChanged` by its number of operands
(30_encoding R87, R92). -/
def sourceOperation (name : List Char) (args : List Byte) : Option Instr :=
  match args with
  | [] =>
    if name = ['g','e','t','P','u','l','s','e','W','i','d','t','h'] then some .getpw
    else if name = ['g','e','t','D','a','t','a','W','i','d','t','h'] then some .getdw
    else if name = ['r','e','a','d'] then some .read
    else if name = ['u','p','d','a','t','e'] then some .update
    else if name = ['h','a','s','C','h','a','n','g','e','d'] then some .chg
    else if name = ['g','e','t','L','a','s','t'] then some .getlast
    else if name = ['g','e','t','C','u','r','r','e','n','t'] then some .getcur
    else none
  | [a] =>
    if name = ['s','e','t','P','u','l','s','e','W','i','d','t','h'] then some (.setpw a)
    else if name = ['h','a','s','C','h','a','n','g','e','d'] then some (.chgi a)
    else if name = ['s','t','a','t','e'] then some (.state a)
    else if name = ['l','a','s','t'] then some (.last a)
    else if name = ['p','r','e','s','s','e','d'] then some (.pressed a)
    else if name = ['r','e','l','e','a','s','e','d'] then some (.released a)
    else none
  | [a, b, c, d] =>
    if name = ['b','e','g','i','n'] then some (.begin a b c d)
    else none
  | _ => none

/-- The operation of a mnemonic with its operands, the equivalent spelling (30_encoding R87, R92). -/
def mnemonicOperation (name : List Char) (args : List Byte) : Option Instr :=
  match args with
  | [] =>
    if name = ['G','E','T','P','W'] then some .getpw
    else if name = ['G','E','T','D','W'] then some .getdw
    else if name = ['R','E','A','D'] then some .read
    else if name = ['U','P','D','A','T','E'] then some .update
    else if name = ['C','H','G'] then some .chg
    else if name = ['G','E','T','L','A','S','T'] then some .getlast
    else if name = ['G','E','T','C','U','R'] then some .getcur
    else none
  | [a] =>
    if name = ['S','E','T','P','W'] then some (.setpw a)
    else if name = ['C','H','G','I'] then some (.chgi a)
    else if name = ['S','T','A','T','E'] then some (.state a)
    else if name = ['L','A','S','T'] then some (.last a)
    else if name = ['P','R','E','S','S','E','D'] then some (.pressed a)
    else if name = ['R','E','L','E','A','S','E','D'] then some (.released a)
    else none
  | [a, b, c, d] =>
    if name = ['B','E','G','I','N'] then some (.begin a b c d)
    else none
  | _ => none

/-- The tokens inside the call's brackets: those before a last `)`. -/
def insideCall : List Token → Option (List Token)
  | [] => none
  | [t] => if t = .rpar then some [] else none
  | t :: ts => (insideCall ts).map (t :: ·)

/-- A line before its arrow: `name(` operands `)`, or a mnemonic with its operands (R92). -/
def callOf : List Token → Option Instr
  | .word name :: .lpar :: ts =>
    match insideCall ts with
    | some inner => (operandList inner).bind (sourceOperation name)
    | none => none
  | .word name :: ts => (operandList ts).bind (mnemonicOperation name)
  | _ => none

/-- The tokens before and after the first arrow. -/
def splitArrow : List Token → List Token × Option (List Token)
  | [] => ([], none)
  | t :: ts => if t = .arrow then ([], some ts) else (t :: (splitArrow ts).1, (splitArrow ts).2)

/-- One line: the operation, and the expected response where `-> v` gives one (R92). R92 gives `v` neither
a form nor a range: DESIGN CHOICE, safe (log 13): `v` is an unsigned number written as an operand is, and
any such number is taken, even one that no 64-bit response word can equal. -/
def parseLine (cs : List Char) : Option (Instr × Option Nat) :=
  let parts := splitArrow (lexLine [] cs)
  match callOf parts.1, parts.2 with
  | some i, none => some (i, none)
  | some i, some [.word w] => (numberValue w).map fun v => (i, some v)
  | _, _ => none

/-- The lines of a text. -/
def splitLines : List Char → List (List Char)
  | [] => [[]]
  | c :: cs =>
    if c = '\n' then [] :: splitLines cs
    else match splitLines cs with
      | [] => [[c]]
      | l :: ls => (c :: l) :: ls

/-- A program: its operations in the order of its lines; a line with no token holds none (R92). -/
def parseLines : List (List Char) → Option (List (Instr × Option Nat))
  | [] => some []
  | l :: ls =>
    if (lexLine [] l).isEmpty then parseLines ls
    else
      match parseLine l, parseLines ls with
      | some x, some xs => some (x :: xs)
      | _, _ => none

/-- The program a text stands for (R92). -/
def parseProgram (cs : List Char) : Option (List (Instr × Option Nat)) := parseLines (splitLines cs)

/-- A program at the command port: its operations issued one by one, top to bottom (R92). -/
def programActions (is : List Instr) : List HostAction := is.map fun i => .command (encode i)

end Sys2Proof.Machine
end

