-- ==== Sys2Proof/Safety.lean ====
section
/-! DEFINITION. What every state of a run satisfies, and what counts as a final run. -/

namespace Sys2Proof.Machine

/-- The sequencer's own invariant: `ACC` holds no bit outside the sample, `I` counts 0 to `W - 1` in the
loop, and the load phase has read nothing (10_state R34, 41_sampling R132). -/
def InFlight.Ok (c : ChipCount) (f : InFlight) : Prop :=
  f.acc.toNat < 2 ^ c.dataWidth ∧
  match f.pos with
  | .clkenHigh => f.i = 0 ∧ f.acc = 0
  | .loadLow => f.i = 0 ∧ f.acc = 0
  | .loadSleep => f.i = 0 ∧ f.acc = 0
  | .loadHigh => f.i = 0 ∧ f.acc = 0
  | .clkenLow => f.i = 0 ∧ f.acc = 0
  | .readBit => f.i < c.dataWidth
  | .clockHigh => f.i < c.dataWidth
  | .clockSleep => f.i < c.dataWidth
  | .clockLow => f.i < c.dataWidth
  | .store => f.i = c.dataWidth

/-- What holds in every reachable state: the two bitfields have no bit from `W` up (10_state R23), the
pin registers hold values exactly when BEGIN has run (R28, R29, R31), the pin shadow is in its canonical
form, and an operation in flight is after BEGIN and at a place its position allows. -/
structure State.Inv (s : State) : Prop where
  cur_lt : s.cur.toNat < 2 ^ s.chips.dataWidth
  last_lt : s.last.toNat < 2 ^ s.chips.dataWidth
  pins_begun : s.pinLoad.isSome = s.begun ∧ s.pinClken.isSome = s.begun ∧
    s.pinData.isSome = s.begun ∧ s.pinClk.isSome = s.begun
  dirs_wf : mapWf s.dirs
  outs_wf : mapWf s.outs
  engine_ok : ∀ f, s.engine = .busy f → s.begun = true ∧ f.Ok s.chips

/-- Between operations after BEGIN, with the three driven pins different, the load line was last written
HIGH and the clock line LOW: where every READ begins (41_sampling R138). -/
def State.LevelsReady (s : State) : Prop :=
  ∀ p, s.pinSet = some p → p.load ≠ p.clk → p.load ≠ p.clken → p.clken ≠ p.clk →
    mapGet p.load.toNat s.outs = some .high ∧ mapGet p.clk.toNat s.outs = some .low

/-- The host's index into its program: the responses taken so far (10_state R35). -/
def State.hpc (s : State) : Nat := s.responses.length

/-- `k` steps of the machine, stopping at the first fault or refusal (60_exceptions R190, R213). -/
def runSteps : Nat → State → Host.Outcome State Fault Refusal
  | 0, s => .next s
  | k + 1, s =>
    match step s with
    | .next t => runSteps k t
    | .fault f => .fault f
    | .refused r => .refused r

/-- A run of `k` steps is final: no operation faulted, the last response is given and the engine is idle
(60_exceptions R213). -/
def FinalRun (k : Nat) (s t : State) : Prop :=
  runSteps k s = .next t ∧ t.engine = .idle ∧ t.inbox = []

/-- The load phase as a list of events (41_sampling R131). -/
def loadEvents (p : Pins) (pw : BitVec 8) : List Event :=
  [.pinWrite p.clken .high, .pinWrite p.load .low, .sleep pw, .pinWrite p.load .high,
   .pinWrite p.clken .low]

/-- One iteration of the shift loop that reads level `l`, as a list of events (41_sampling R132). -/
def bitEvents (p : Pins) (pw : BitVec 8) (l : Level) : List Event :=
  [.pinRead p.data l, .pinWrite p.clk .high, .sleep pw, .pinWrite p.clk .low]

/-- The event list of a READ whose reads answer `ls`, in order (41_sampling R133). -/
def sampleEvents (p : Pins) (pw : BitVec 8) (ls : List Level) : List Event :=
  loadEvents p pw ++ ls.flatMap (bitEvents p pw)

/-- The value of a sample read as `ls`: the sum over `i` of `lvl(l_i) * 2^(W-1-i)` (41_sampling R134). -/
def sampleNat (ls : List Level) : Nat :=
  ∑ i ∈ Finset.range ls.length, (lvl (ls.getD i .low)).toNat * 2 ^ (ls.length - 1 - i)

/-- The environment `e'` is `e` after events: the oracle stays the oracle, and a SimChain stays that
SimChain, its parallel inputs, `PW_MIN` and `SER_IN` kept; only what its shift register holds and whether
it is garbled may differ (60_exceptions R206 to R210). -/
def Environment.KeepsInputs (e e' : Environment) : Prop :=
  (e = .oracle → e' = .oracle) ∧
  ∀ m, e = .simChain m → ∃ (q : Bitfield) (g : Bool),
    e' = .simChain { m with shift := q, garbled := g }

/-- State `t` is `s` after a sampling operation that drove pins `p` and read `ls`: LAST, CUR and the
trace as 41_sampling R130 says; the levels of the three driven pins, SimChain's shift register, the
oracle's answers and the responses may differ; every other field, and the level of every other pin, is
`s`'s. -/
def Sampled (p : Pins) (ls : List Level) (s t : State) : Prop :=
  ∃ (rs : List ResponseWord) (o : PinMap Level) (e : Environment) (a : List Level) (d : Nat),
    t = { s with
      last := s.curVal
      cur := BitVec.ofNat 64 (sampleNat ls)
      trace := s.trace ++ sampleEvents p s.pw ls
      responses := rs
      outs := o
      env := e
      answers := a
      draws := d } ∧
    (∀ k, k ≠ p.load.toNat → k ≠ p.clken.toNat → k ≠ p.clk.toNat → mapGet k o = mapGet k s.outs) ∧
    s.env.KeepsInputs e

/-- What the engine asked for, less the environment's answer (41_sampling R133). -/
def eraseAnswer : Event → Event
  | .pinMode pin dir => .pinMode pin dir
  | .pinWrite pin level => .pinWrite pin level
  | .pinRead pin _ => .pinRead pin .low
  | .sleep d => .sleep d

/-- A `PinWrite` (41_sampling R133). -/
def isPinWrite : Event → Bool
  | .pinMode _ _ => false
  | .pinWrite _ _ => true
  | .pinRead _ _ => false
  | .sleep _ => false

/-- A `PinRead` of pin `p`, whatever was answered (41_sampling R133). -/
def isReadOf (p : PinId) : Event → Bool
  | .pinMode _ _ => false
  | .pinWrite _ _ => false
  | .pinRead pin _ => pin == p
  | .sleep _ => false

/-- The eight queries (42_queries). -/
def isQuery : Instr → Bool
  | .begin _ _ _ _ => false
  | .getpw => false
  | .setpw _ => false
  | .getdw => false
  | .read => false
  | .update => false
  | .chg => true
  | .chgi _ => true
  | .state _ => true
  | .last _ => true
  | .pressed _ => true
  | .released _ => true
  | .getlast => true
  | .getcur => true

/-- The match and mask columns of spec/opcode_table.json, row by row (30_encoding R89). -/
def legalPatterns : List (CommandWord × CommandWord) :=
  [(0x0100000000, 0xFF00000000), (0x0200000000, 0xFFFFFFFFFF), (0x0300000000, 0xFFFFFFFF00),
   (0x0400000000, 0xFFFFFFFFFF), (0x0500000000, 0xFFFFFFFFFF), (0x0600000000, 0xFFFFFFFFFF),
   (0x0700000000, 0xFFFFFFFFFF), (0x0800000000, 0xFFFFFFFF00), (0x0900000000, 0xFFFFFFFF00),
   (0x0A00000000, 0xFFFFFFFF00), (0x0B00000000, 0xFFFFFFFF00), (0x0C00000000, 0xFFFFFFFF00),
   (0x0D00000000, 0xFFFFFFFFFF), (0x0E00000000, 0xFFFFFFFFFF)]

/-- Operation `i` in state `s` gives a next state with one response more, `r`. -/
def Answers (i : Instr) (s : State) (r : ResponseWord) : Prop :=
  ∃ t, exec i s = .next t ∧ t.responses = s.responses ++ [r]

/-- The least time a list of events takes, in microseconds (70_reset_and_hazards R240). -/
def minMicros (es : List Event) : Nat := (es.map Event.minMicros).sum

end Sys2Proof.Machine
end

