-- ==== Sys2Proof/WellFormed.lean ====
section
/-! DEFINITION. Which operations are well-formed inputs of an instance. -/

namespace Sys2Proof

/-- The caller contract on the operands (20_memory R51, 60_exceptions R212): a bit index lies in
`[0, W)`. Every other operand byte may take all 256 values (30_encoding R89). An operation outside it
is a legal word whose execution faults (30_encoding R85, R89). -/
def Instr.wellFormed (c : ChipCount) : Instr → Bool
  | .begin _ _ _ _ => true
  | .getpw => true
  | .setpw _ => true
  | .getdw => true
  | .read => true
  | .update => true
  | .chg => true
  | .chgi id => decide (id.toNat < c.dataWidth)
  | .state id => decide (id.toNat < c.dataWidth)
  | .last id => decide (id.toNat < c.dataWidth)
  | .pressed id => decide (id.toNat < c.dataWidth)
  | .released id => decide (id.toNat < c.dataWidth)
  | .getlast => true
  | .getcur => true

end Sys2Proof
end

