-- ==== Sys2Proof/Certificates/Slice0/Obligations.lean ====
section
/-! DEFINITION. The statements for the provers. -/

open Sys2Proof Sys2Proof.Machine

/-! ### Parameters and reset -/

/-- 00_scope R6: an instance is built for `chipCount` 1 to 8 and for no other number. -/
def Obligations.ChipCountOutsideOneToEightIsRefused : Prop :=
  ∀ n : Nat, (∀ c, ChipCount.ofNat? n = some c → c.val = n) ∧
    ((ChipCount.ofNat? n).isSome = true ↔ 1 ≤ n ∧ n ≤ 8)

/-- 00_scope R7: `W = chipCount * 8`, and `S` is the smallest of 8, 16, 32, 64 that has at least `W`
bits. -/
def Obligations.DerivedWidths : Prop :=
  ∀ c : ChipCount, c.dataWidth = c.val * 8 ∧ c.storageWidth ∈ [8, 16, 32, 64] ∧
    c.dataWidth ≤ c.storageWidth ∧ ∀ n ∈ [8, 16, 32, 64], c.dataWidth ≤ n → c.storageWidth ≤ n

/-- 10_state R37: the state of every instance after reset (its table marks the idle engine and the empty
trace as derived: nothing has run). -/
def Obligations.ResetLeavesTheStatedValues : Prop :=
  ∀ c : ChipCount,
    (State.resetOf c).cur = 0 ∧ (State.resetOf c).last = 0 ∧ (State.resetOf c).pw = 5 ∧
    (State.resetOf c).pinLoad = none ∧ (State.resetOf c).pinClken = none ∧
    (State.resetOf c).pinData = none ∧ (State.resetOf c).pinClk = none ∧
    (State.resetOf c).begun = false ∧ (State.resetOf c).engine = .idle ∧
    (State.resetOf c).trace = [] ∧
    (∀ p : PinId, mapGet p.toNat (State.resetOf c).dirs = none ∧
      mapGet p.toNat (State.resetOf c).outs = none)

/-- The invariant `State.Inv` holds after reset, for every instance. -/
def Obligations.ResetMeetsInvariant : Prop := ∀ c : ChipCount, (State.resetOf c).Inv

/-! ### Configuration -/

/-- 40_config_ops R110: BEGIN before BEGIN completes, with its four registers, its six events in order,
`BEGUN` and response 0, whatever the pins; nothing else changes but the pin shadow of the pins it names,
and the environment, SimChain included, stays as it was. A second BEGIN is `F_REBEGIN`. The hypothesis
`accepts` holds of every pin choice under the oracle; under SimChain it asks for pairwise different pins
(60_exceptions R206, SimChainRefusesCoincidingPins). The order of the `PinMode`s and the two writes are the spec's decisions D12 and
D13. -/
def Obligations.BeginConfiguresThePins : Prop :=
  ∀ (s : State) (ld ce da ck : PinId),
    (encode (.begin ld ce da ck)).toNat =
      0x01 * 2 ^ 32 + ld.toNat * 2 ^ 24 + ce.toNat * 2 ^ 16 + da.toNat * 2 ^ 8 + ck.toNat ∧
    (s.begun = true → exec (.begin ld ce da ck) s = .fault .rebegin) ∧
    (s.begun = false → s.env.accepts ⟨ld, ce, da, ck⟩ = true →
      ∃ (ds : PinMap Direction) (os : PinMap Level),
        exec (.begin ld ce da ck) s = .next { s with
          pinLoad := some ld
          pinClken := some ce
          pinData := some da
          pinClk := some ck
          begun := true
          trace := s.trace ++ [.pinMode ld .output, .pinMode ce .output, .pinMode da .input,
            .pinMode ck .output, .pinWrite ck .low, .pinWrite ld .high]
          responses := s.responses ++ [0]
          dirs := ds
          outs := os } ∧
        (∀ k, k ≠ ld.toNat → k ≠ ce.toNat → k ≠ da.toNat → k ≠ ck.toNat →
          mapGet k ds = mapGet k s.dirs) ∧
        (∀ k, k ≠ ck.toNat → k ≠ ld.toNat → mapGet k os = mapGet k s.outs) ∧
        mapGet ck.toNat ds = some .output ∧
        (da ≠ ck → mapGet da.toNat ds = some .input) ∧
        (ce ≠ da → mapGet ce.toNat ds = some .output) ∧
        (ld ≠ da → mapGet ld.toNat ds = some .output) ∧
        mapGet ld.toNat os = some .high ∧
        (ld ≠ ck → mapGet ck.toNat os = some .low))

/-- 92 D30: the oracle takes any four pins; SimChain refuses a BEGIN whose pins are not pairwise
different, and takes one whose pins are (60_exceptions R206). -/
def Obligations.SimChainRefusesCoincidingPins : Prop :=
  ∀ (s : State) (ld ce da ck : PinId), s.begun = false →
    (exec (.begin ld ce da ck) s = .refused .simChainPins ↔
      (∃ m, s.env = .simChain m) ∧ ¬ [ld, ce, da, ck].Nodup)

/-- 40_config_ops R111. -/
def Obligations.GetpwAnswersThePulseWidth : Prop :=
  ∀ s : State, encode .getpw = 0x0200000000#40 ∧
    ∃ r : ResponseWord, r.toNat = s.pw.toNat ∧
      exec .getpw s = .next { s with responses := s.responses ++ [r] }

/-- 40_config_ops R112: every value, before and after BEGIN. -/
def Obligations.SetpwWritesThePulseWidth : Prop :=
  ∀ (s : State) (v : Byte), (encode (.setpw v)).toNat = 0x03 * 2 ^ 32 + v.toNat ∧
    exec (.setpw v) s = .next { s with pw := v, responses := s.responses ++ [0] }

/-- 40_config_ops R113. -/
def Obligations.GetdwAnswersTheDataWidth : Prop :=
  ∀ s : State, encode .getdw = 0x0400000000#40 ∧
    ∃ r : ResponseWord, r.toNat = s.chips.val * 8 ∧
      exec .getdw s = .next { s with responses := s.responses ++ [r] }

/-! ### Sampling -/

/-- 41_sampling R130 to R132: before BEGIN a READ faults; after it, READ completes in every environment:
for some `W` levels, the data pin's answers as the trace shows them, LAST is the CUR before, CUR the
sample, the trace grows by the load phase and `W` iterations, and the response is the sample. Everything
else is unchanged (`Sampled`). -/
def Obligations.ReadSamplesTheChain : Prop :=
  ∀ s : State, encode .read = 0x0500000000#40 ∧
    (s.begun = false → exec .read s = .fault (.notBegun .read)) ∧
    ∀ p : Pins, s.pinSet = some p →
      ∃ (ls : List Level) (t : State), ls.length = s.chips.dataWidth ∧ exec .read s = .next t ∧
        Sampled p ls s t ∧ t.responses = s.responses ++ [t.cur]

/-- 41_sampling R134, which the spec derives from R130 and R132: with the environment's `W` answers given,
bit `W-1-i` of CUR is answer `i`, the bits from `W` up are 0, and no other input counts. -/
def Obligations.ReadPlacesFirstBitHighest : Prop :=
  ∀ (s : State) (p : Pins) (ls rest : List Level), s.pinSet = some p → s.env = .oracle →
    s.answers = ls ++ rest → ls.length = s.chips.dataWidth →
    ∃ t, exec .read s = .next t ∧ Sampled p ls s t ∧ t.answers = rest ∧ t.draws = s.draws ∧
      t.cur.toNat = sampleNat ls ∧
      (∀ i, i < s.chips.dataWidth →
        t.cur.getLsbD (s.chips.dataWidth - 1 - i) = lvl (ls.getD i .low)) ∧
      (∀ j, s.chips.dataWidth ≤ j → t.cur.getLsbD j = false)

/-- 41_sampling R136: before BEGIN an UPDATE faults; after it, UPDATE leaves exactly what READ leaves, but
answers whether the new sample differs from the CUR before. -/
def Obligations.UpdateComparesWithThePreviousSample : Prop :=
  ∀ s : State, encode .update = 0x0600000000#40 ∧
    (s.begun = false → exec .update s = .fault (.notBegun .update)) ∧
    ∀ p : Pins, s.pinSet = some p →
      ∃ (ls : List Level) (t u : State), ls.length = s.chips.dataWidth ∧ exec .read s = .next t ∧
        exec .update s = .next u ∧ Sampled p ls s u ∧
        u = { t with responses := s.responses ++ [if u.cur = s.curVal then 0 else 1] }

/-- 60_exceptions R192: READ and UPDATE before BEGIN. -/
def Obligations.SamplingBeforeBeginFaults : Prop :=
  ∀ s : State, s.begun = false →
    exec .read s = .fault (.notBegun .read) ∧ exec .update s = .fault (.notBegun .update)

/-- 41_sampling R133, which the spec derives from R131 and R132: the number of events of a READ or UPDATE
and of each kind; every Sleep carries PW and every read is of the data pin (R140). -/
def Obligations.SampleEventCounts : Prop :=
  ∀ (s t : State) (p : Pins) (i : Instr), s.pinSet = some p → (i = .read ∨ i = .update) →
    exec i s = .next t →
    ∃ es, t.trace = s.trace ++ es ∧ es.length = 5 + 4 * s.chips.dataWidth ∧
      es.countP isPinWrite = 4 + 2 * s.chips.dataWidth ∧
      es.countP (isReadOf p.data) = s.chips.dataWidth ∧
      es.countP (fun e => e == .sleep s.pw) = s.chips.dataWidth + 1

/-- 41_sampling R133, R137: what the engine asks for does not depend on the levels read, nor on anything
but `W`, PW and the four pins. -/
def Obligations.EventsDoNotDependOnLevels : Prop :=
  ∀ (s s' t t' : State) (p : Pins), s.pinSet = some p → s'.pinSet = some p → s'.pw = s.pw →
    s'.chips = s.chips → exec .read s = .next t → exec .read s' = .next t' →
    ∃ es es', t.trace = s.trace ++ es ∧ t'.trace = s'.trace ++ es' ∧
      es.map eraseAnswer = es'.map eraseAnswer

/-- 41_sampling R138, which the spec derives from R133: the levels after a READ or UPDATE whose driven
pins differ. -/
def Obligations.PinLevelsAfterSample : Prop :=
  ∀ (s t : State) (p : Pins) (i : Instr), s.pinSet = some p → (i = .read ∨ i = .update) →
    p.load ≠ p.clken → p.load ≠ p.clk → p.clken ≠ p.clk → exec i s = .next t →
    mapGet p.load.toNat t.outs = some .high ∧ mapGet p.clken.toNat t.outs = some .low ∧
      mapGet p.clk.toNat t.outs = some .low

/-- 41_sampling R138: between operations the load line stays HIGH and the clock line LOW, whichever
operation is executed, from BEGIN on. -/
def Obligations.LevelsReadyIsKept : Prop :=
  ∀ (i : Instr) (s t : State), s.LevelsReady → exec i s = .next t → t.LevelsReady

/-- 10_state R24: two READs in a row; the second's LAST is the first's sample. -/
def Obligations.TwoReadsKeepTwoGenerations : Prop :=
  ∀ (s : State) (p : Pins), s.pinSet = some p →
    ∃ t u, exec .read s = .next t ∧ exec .read t = .next u ∧ t.lastVal = s.curVal ∧
      u.lastVal = t.curVal ∧ u.responses = s.responses ++ [t.curVal, u.curVal]

/-- 30_encoding R93: UPDATE against READ followed by CHG: the same state and trace, and the last response
is UPDATE's. -/
def Obligations.UpdateIsReadThenCompare : Prop :=
  ∀ (s : State) (p : Pins), s.pinSet = some p →
    ∃ t u v, exec .read s = .next t ∧ exec .chg t = .next u ∧ exec .update s = .next v ∧
      ∃ r, u.responses = s.responses ++ [t.curVal, r] ∧
        v = { u with responses := s.responses ++ [r] }

/-- 70_reset_and_hazards R240: the least time of a READ or UPDATE is `(W + 1) * PW` microseconds, with
`4 + 3 * W` pin calls besides. -/
def Obligations.SampleTakesAtLeast : Prop :=
  ∀ (s t : State) (i : Instr), (i = .read ∨ i = .update) → exec i s = .next t →
    ∃ es, t.trace = s.trace ++ es ∧ minMicros es = (s.chips.dataWidth + 1) * s.pw.toNat ∧
      es.countP Event.isPinCall = 4 + 3 * s.chips.dataWidth

/-- 70_reset_and_hazards R226: the first sample is compared with the reset value 0. -/
def Obligations.FirstSampleIsComparedWithZero : Prop :=
  ∀ (s : State) (p : Pins), s.pinSet = some p → s.cur = 0 →
    ∃ t, exec .read s = .next t ∧
      (∀ id : Byte, id.toNat < s.chips.dataWidth →
        Answers (.pressed id) t (if t.cur.getLsbD id.toNat then 1 else 0) ∧
        Answers (.released id) t 0) ∧
      Answers .chg t (if t.cur = 0 then 0 else 1) ∧
      Answers .update s (if t.cur = 0 then 0 else 1)

/-! ### Queries -/

/-- 42_queries R160: all `S` bits are compared. -/
def Obligations.ChgComparesTheGenerations : Prop :=
  ∀ s : State, encode .chg = 0x0700000000#40 ∧
    ∃ r : ResponseWord,
      ((r = 1 ∧ ∃ j, j < s.chips.storageWidth ∧ s.last.getLsbD j ≠ s.cur.getLsbD j) ∨
       (r = 0 ∧ ∀ j, j < s.chips.storageWidth → s.last.getLsbD j = s.cur.getLsbD j)) ∧
      exec .chg s = .next { s with responses := s.responses ++ [r] }

/-- 42_queries R161. -/
def Obligations.ChgiComparesOneBit : Prop :=
  ∀ (s : State) (id : Byte), (encode (.chgi id)).toNat = 0x08 * 2 ^ 32 + id.toNat ∧
    (id.toNat < s.chips.dataWidth → exec (.chgi id) s = .next { s with
      responses := s.responses ++ [if s.cur.getLsbD id.toNat ≠ s.last.getLsbD id.toNat then 1 else 0] }) ∧
    (s.chips.dataWidth ≤ id.toNat → exec (.chgi id) s = .fault (.indexRange .chgi id))

/-- 42_queries R162. -/
def Obligations.StateReadsACurBit : Prop :=
  ∀ (s : State) (id : Byte), (encode (.state id)).toNat = 0x09 * 2 ^ 32 + id.toNat ∧
    (id.toNat < s.chips.dataWidth → exec (.state id) s = .next { s with
      responses := s.responses ++ [if s.cur.getLsbD id.toNat then 1 else 0] }) ∧
    (s.chips.dataWidth ≤ id.toNat → exec (.state id) s = .fault (.indexRange .state id))

/-- 42_queries R163. -/
def Obligations.LastReadsALastBit : Prop :=
  ∀ (s : State) (id : Byte), (encode (.last id)).toNat = 0x0A * 2 ^ 32 + id.toNat ∧
    (id.toNat < s.chips.dataWidth → exec (.last id) s = .next { s with
      responses := s.responses ++ [if s.last.getLsbD id.toNat then 1 else 0] }) ∧
    (s.chips.dataWidth ≤ id.toNat → exec (.last id) s = .fault (.indexRange .last id))

/-- 42_queries R164. -/
def Obligations.PressedIsARisingEdge : Prop :=
  ∀ (s : State) (id : Byte), (encode (.pressed id)).toNat = 0x0B * 2 ^ 32 + id.toNat ∧
    (id.toNat < s.chips.dataWidth → exec (.pressed id) s = .next { s with
      responses := s.responses ++
        [if s.cur.getLsbD id.toNat = true ∧ s.last.getLsbD id.toNat = false then 1 else 0] }) ∧
    (s.chips.dataWidth ≤ id.toNat → exec (.pressed id) s = .fault (.indexRange .pressed id))

/-- 42_queries R165. -/
def Obligations.ReleasedIsAFallingEdge : Prop :=
  ∀ (s : State) (id : Byte), (encode (.released id)).toNat = 0x0C * 2 ^ 32 + id.toNat ∧
    (id.toNat < s.chips.dataWidth → exec (.released id) s = .next { s with
      responses := s.responses ++
        [if s.cur.getLsbD id.toNat = false ∧ s.last.getLsbD id.toNat = true then 1 else 0] }) ∧
    (s.chips.dataWidth ≤ id.toNat → exec (.released id) s = .fault (.indexRange .released id))

/-- 42_queries R166: the `S` bits of LAST, zero-extended. -/
def Obligations.GetlastAnswersLast : Prop :=
  ∀ s : State, encode .getlast = 0x0D00000000#40 ∧
    ∃ r : ResponseWord, r.toNat = s.last.toNat % 2 ^ s.chips.storageWidth ∧
      exec .getlast s = .next { s with responses := s.responses ++ [r] }

/-- 42_queries R167: the `S` bits of CUR, zero-extended. -/
def Obligations.GetcurAnswersCur : Prop :=
  ∀ s : State, encode .getcur = 0x0E00000000#40 ∧
    ∃ r : ResponseWord, r.toNat = s.cur.toNat % 2 ^ s.chips.storageWidth ∧
      exec .getcur s = .next { s with responses := s.responses ++ [r] }

/-- 42_queries R168: a query writes nothing but its response, and two states that agree on the instance,
CUR and LAST give it the same response, whatever PW, the pins, BEGUN and the rest are. -/
def Obligations.QueriesArePureAndSeeOnlyTheSamples : Prop :=
  ∀ (i : Instr) (s s' t : State), isQuery i = true → s'.chips = s.chips → s'.cur = s.cur →
    s'.last = s.last → exec i s = .next t →
    ∃ r, t = { s with responses := s.responses ++ [r] } ∧
      exec i s' = .next { s' with responses := s'.responses ++ [r] }

/-- 20_memory R71, 42_queries R168: asking twice gives the same answer twice. -/
def Obligations.QueriesAreIdempotent : Prop :=
  ∀ (i : Instr) (s t : State), isQuery i = true → exec i s = .next t →
    ∃ u r, exec i t = .next u ∧ t.responses = s.responses ++ [r] ∧ u.responses = s.responses ++ [r, r]

/-- 42_queries R169, which the spec derives from R160 to R165: the truth table of the single-bit queries,
CHG as the disjunction of CHGI over `[0, W)` and as `(CUR ^ LAST) != 0`, and the sets of pressed and
released bits. -/
def Obligations.EdgeLaws : Prop :=
  ∀ s : State, s.Inv →
    (∀ id : Byte, id.toNat < s.chips.dataWidth →
      ((s.last.getLsbD id.toNat = false ∧ s.cur.getLsbD id.toNat = false ∧ Answers (.state id) s 0 ∧
          Answers (.last id) s 0 ∧ Answers (.chgi id) s 0 ∧ Answers (.pressed id) s 0 ∧
          Answers (.released id) s 0) ∨
       (s.last.getLsbD id.toNat = false ∧ s.cur.getLsbD id.toNat = true ∧ Answers (.state id) s 1 ∧
          Answers (.last id) s 0 ∧ Answers (.chgi id) s 1 ∧ Answers (.pressed id) s 1 ∧
          Answers (.released id) s 0) ∨
       (s.last.getLsbD id.toNat = true ∧ s.cur.getLsbD id.toNat = false ∧ Answers (.state id) s 0 ∧
          Answers (.last id) s 1 ∧ Answers (.chgi id) s 1 ∧ Answers (.pressed id) s 0 ∧
          Answers (.released id) s 1) ∨
       (s.last.getLsbD id.toNat = true ∧ s.cur.getLsbD id.toNat = true ∧ Answers (.state id) s 1 ∧
          Answers (.last id) s 1 ∧ Answers (.chgi id) s 0 ∧ Answers (.pressed id) s 0 ∧
          Answers (.released id) s 0))) ∧
    (Answers .chg s 1 ↔ ∃ id : Byte, id.toNat < s.chips.dataWidth ∧ Answers (.chgi id) s 1) ∧
    (Answers .chg s 1 ↔ s.cur ^^^ s.last ≠ 0) ∧
    (∀ id : Byte, id.toNat < s.chips.dataWidth →
      (s.pressedSet.getLsbD id.toNat = true ↔ Answers (.pressed id) s 1) ∧
      (s.releasedSet.getLsbD id.toNat = true ↔ Answers (.released id) s 1)) ∧
    (∀ j, s.chips.dataWidth ≤ j → s.pressedSet.getLsbD j = false ∧ s.releasedSet.getLsbD j = false)

/-- 60_exceptions R191, 42_queries R170: exactly the five single-bit operations, exactly when
`id >= W`, with the operation and the `id` recorded. -/
def Obligations.IndexOutOfRangeFaults : Prop :=
  ∀ (i : Instr) (s : State) (q : BitQuery) (id : Byte),
    exec i s = .fault (.indexRange q id) ↔
      s.chips.dataWidth ≤ id.toNat ∧
      ((i = .chgi id ∧ q = .chgi) ∨ (i = .state id ∧ q = .state) ∨ (i = .last id ∧ q = .last) ∨
       (i = .pressed id ∧ q = .pressed) ∨ (i = .released id ∧ q = .released))

/-! ### Encoding -/

/-- 30_encoding R90: encoding is the inverse of decoding, in both directions. -/
def Obligations.DecodeAndEncodeAreInverse : Prop :=
  (∀ i : Instr, decode (encode i) = .op i) ∧
  (∀ (w : CommandWord) (i : Instr), decode w = .op i → encode i = w)

/-- 30_encoding R89: a word is an operation exactly when it matches a row of the opcode table, and any
other word issued is `F_ILLEGAL_CMD`. -/
def Obligations.LegalWordsAreTheTableRows : Prop :=
  ∀ w : CommandWord, ((∃ i, decode w = .op i) ↔ ∃ r ∈ legalPatterns, w &&& r.2 = r.1) ∧
    ((¬ ∃ r ∈ legalPatterns, w &&& r.2 = r.1) →
      ∀ s : State, issue w s = .fault (.illegalCmd w) ∧ post w s = .fault (.illegalCmd w))

/-- 30_encoding R82, R87: words written out from the encoding tables. -/
def Obligations.WordsOfTheEncodingTable : Prop :=
  decode 0x0108090B0C#40 = .op (.begin 8 9 11 12) ∧ decode 0x030000000A#40 = .op (.setpw 10) ∧
  decode 0x0500000000#40 = .op .read ∧ decode 0x0B00000003#40 = .op (.pressed 3) ∧
  decode 0x0500000001#40 = .invalid (.mustBeZero 5) ∧
  decode 0x0F00000000#40 = .invalid (.unassignedOpcode 15)

/-! ### The command port -/

/-- 92 D1, D21; 60_exceptions R198: a legal word presented to an idle engine is executed whole. -/
def Obligations.StepRunsTheDecodedCommand : Prop :=
  ∀ (s : State) (w : CommandWord) (i : Instr) (rest : List HostAction), s.engine = .idle →
    s.inbox = .command w :: rest → decode w = .op i → step s = exec i { s with inbox := rest }

/-- 92 D1, D21; 41_sampling R130; 60_exceptions R192: a legal word posted to an idle engine by a host that
does not wait. Any operation but READ and UPDATE is executed whole; these two fault before BEGIN and after
it begin: LAST takes CUR, ACC and I are 0, and the first event comes next (steps 1 and 2). That a host may
post without waiting is the model's choice (log 7). -/
def Obligations.StepBeginsAPostedCommand : Prop :=
  ∀ (s : State) (w : CommandWord) (i : Instr) (rest : List HostAction), s.engine = .idle →
    s.inbox = .post w :: rest → decode w = .op i →
    (sampleOp i = none → step s = exec i { s with inbox := rest }) ∧
    (∀ op, sampleOp i = some op → s.begun = false → step s = .fault (.notBegun op)) ∧
    (∀ op, sampleOp i = some op → s.pinSet.isSome = true →
      step s = .next { s with
        inbox := rest, last := s.curVal, engine := .busy ⟨op, .clkenHigh, 0, 0⟩ })

/-- The model's own choice (log 8): a placed word is what the next step runs. -/
def Obligations.PlacedWordIsRunNext : Prop :=
  ∀ (s : State) (i : Instr),
    step (s.withFetchWord 40 (encode i).toNat) = exec i { s with engine := .idle }

/-- 60_exceptions R195: an invalid word at the port of an idle engine. -/
def Obligations.InvalidWordFaults : Prop :=
  ∀ (s : State) (w : CommandWord) (why : Invalid) (rest : List HostAction), s.engine = .idle →
    (s.inbox = .command w :: rest ∨ s.inbox = .post w :: rest) → decode w = .invalid why →
    step s = .fault (.illegalCmd w)

/-- 60_exceptions R194, R198: a word issued during a READ or UPDATE, legal or not, is `F_REENTRANT`, and
this is the only way to it. -/
def Obligations.OverlapFaults : Prop :=
  ∀ s : State, step s = .fault .reentrant ↔
    (∃ f, s.engine = .busy f) ∧ ∃ w rest, s.inbox = .command w :: rest ∨ s.inbox = .post w :: rest

/-- 70_reset_and_hazards R220, R223; 10_state R37: the external reset, also during a READ. That the
outside (environment, answers, host) is kept is the model's choice (log 9). -/
def Obligations.ExternalResetGivesANewInstance : Prop :=
  ∀ (s : State) (rest : List HostAction), s.inbox = .reset :: rest →
    step s = .next { State.resetOf s.chips with
      env := s.env, answers := s.answers, draws := s.draws, inbox := rest }

/-! ### Invariants and whole-machine rules -/

/-- 10_state R23, R28, R29, R31, R34: every step, from any state that meets it, keeps the invariant. -/
def Obligations.EveryStepKeepsTheInvariant : Prop :=
  ∀ s t : State, s.Inv → step s = .next t → t.Inv

/-- 00_scope R6, 70_reset_and_hazards R223: no step changes the instance. -/
def Obligations.NoStepChangesTheInstance : Prop :=
  ∀ s t : State, step s = .next t → t.chips = s.chips

/-- 10_state R21, R22, R25: only READ and UPDATE write CUR and LAST. -/
def Obligations.OnlySamplingWritesTheGenerations : Prop :=
  ∀ (i : Instr) (s t : State), exec i s = .next t → i ≠ .read → i ≠ .update →
    t.cur = s.cur ∧ t.last = s.last

/-- 10_state R28, R29: after BEGIN no operation changes the pin registers or clears BEGUN. -/
def Obligations.PinsAreImmutableAfterBegin : Prop :=
  ∀ (i : Instr) (s t : State), s.begun = true → exec i s = .next t →
    t.begun = true ∧ t.pinLoad = s.pinLoad ∧ t.pinClken = s.pinClken ∧ t.pinData = s.pinData ∧
      t.pinClk = s.pinClk

/-- 10_state R27: only SETPW writes PW. -/
def Obligations.OnlySetpwWritesThePulseWidth : Prop :=
  ∀ (i : Instr) (s t : State), exec i s = .next t → t.pw = s.pw ∨ i = .setpw t.pw

/-- 30_encoding R91, 20_memory R64: an executed operation gives exactly one response word, and only adds
to the trace; only BEGIN, READ and UPDATE add events. -/
def Obligations.OneResponseAndEventsOnlyAdded : Prop :=
  ∀ (i : Instr) (s t : State), exec i s = .next t →
    (∃ r, t.responses = s.responses ++ [r]) ∧ (∃ es, t.trace = s.trace ++ es) ∧
    ((∀ ld ce da ck, i ≠ .begin ld ce da ck) → i ≠ .read → i ≠ .update →
      t.trace = s.trace ∧ t.dirs = s.dirs ∧ t.outs = s.outs ∧ t.env = s.env ∧
      t.answers = s.answers ∧ t.draws = s.draws)

/-- 60_exceptions R198: an operation raises only the fault of its own check. -/
def Obligations.EachOperationHasAtMostOneCheck : Prop :=
  ∀ (i : Instr) (s : State) (f : Fault), exec i s = .fault f →
    (∃ q id, f = .indexRange q id ∧ i.wellFormed s.chips = false) ∨
    (f = .notBegun .read ∧ i = .read ∧ s.pinSet = none) ∨
    (f = .notBegun .update ∧ i = .update ∧ s.pinSet = none) ∨
    (f = .rebegin ∧ (∃ ld ce da ck, i = .begin ld ce da ck) ∧ s.begun = true)

/-- 00_scope R13: an operation is total over well-formed inputs: with its index in range, BEGIN not run
for BEGIN and run for READ and UPDATE, and the environment taking BEGIN's pins, it completes. -/
def Obligations.WellFormedOperationsComplete : Prop :=
  ∀ (i : Instr) (s : State), s.Inv → i.wellFormed s.chips = true →
    (∀ ld ce da ck, i = .begin ld ce da ck → s.begun = false ∧ s.env.accepts ⟨ld, ce, da, ck⟩ = true) →
    (i = .read ∨ i = .update → s.begun = true) →
    ∃ t, exec i s = .next t

/-! ### The reference chain -/

/-- 60_exceptions R211, which the spec derives from R207 to R209: under SimChain, with the pins pairwise
different, a pulse width not below `PW_MIN` and the clock line LOW, a READ returns the parallel
inputs. -/
def Obligations.SimChainReadReturnsTheInputs : Prop :=
  ∀ (s : State) (p : Pins) (m : SimChain), s.pinSet = some p → s.env = .simChain m →
    [p.load, p.clken, p.data, p.clk].Nodup → m.pwMin ≤ s.pw.toNat →
    mapGet p.clk.toNat s.outs = some .low → m.inputs.toNat < 2 ^ s.chips.dataWidth →
    ∃ t, exec .read s = .next t ∧ t.cur = m.inputs ∧ t.responses = s.responses ++ [m.inputs]

/-- 70_reset_and_hazards R230, 60_exceptions R210: below `PW_MIN` the sample is whatever the environment
answers; any `W`-bit value can be read. SimChain is for pins that are pairwise different
(60_exceptions R206). -/
def Obligations.GarbledReadIsAnyValue : Prop :=
  ∀ (s : State) (p : Pins) (m : SimChain) (ls rest : List Level), s.pinSet = some p →
    s.env = .simChain m → [p.load, p.clken, p.data, p.clk].Nodup → s.pw.toNat < m.pwMin →
    s.answers = ls ++ rest →
    ls.length = s.chips.dataWidth →
    ∃ t, exec .read s = .next t ∧ Sampled p ls s t ∧ t.answers = rest ∧ t.cur.toNat = sampleNat ls

/-- 41_sampling R139, which the spec derives from R132: what the far end of the chain shifts in never
reaches CUR. Two chains that differ in `SER_IN` and in what was left in `Q` give the same READ. SimChain is
for pins that are pairwise different (60_exceptions R206). -/
def Obligations.SerialInputIsNeverRead : Prop :=
  ∀ (s t t' : State) (p : Pins) (m : SimChain) (q : Bitfield) (b : Bool), s.pinSet = some p →
    s.env = .simChain m → [p.load, p.clken, p.data, p.clk].Nodup →
    exec .read s = .next t →
    exec .read { s with env := .simChain { m with serIn := b, shift := q } } = .next t' →
    t'.cur = t.cur ∧ t'.last = t.last ∧ t'.trace = t.trace ∧ t'.responses = t.responses

/-! ### A READ in flight -/

/-- 41_sampling R135, 92 D21: a READ or UPDATE posted to an idle engine and run event by event, with
nothing else to do, ends after the step that takes the word, `5 + 4 * W` events and step 5 in exactly the
state of the whole operation in one step. -/
def Obligations.SplitSampleEqualsAtomic : Prop :=
  ∀ (s : State) (i : Instr) (op : SampleOp), s.engine = .idle → s.inbox = [.post (encode i)] →
    sampleOp i = some op → s.pinSet.isSome = true →
    ∃ s0, step s = .next s0 ∧ s0.engine = .busy ⟨op, .clkenHigh, 0, 0⟩ ∧
      runSteps (6 + 4 * s.chips.dataWidth) s0 = exec i { s with inbox := [] }

/-- 20_memory R68; 41_sampling R135, R140; 60_exceptions R206: with no word issued and no reset (the host
has nothing to do, waits, or has inputs to set), a step of an operation in flight after BEGIN completes.
Until step 5 it gives no response and writes neither CUR nor LAST; each position adds one event, and step
5 ends it. PW, BEGUN, the pin registers, the directions and the instance stay as they were, and so do the
chain's inputs: inputs to be set wait until the operation has ended, and a wait passes (log 7, log 17). -/
def Obligations.InFlightSampleIsNotVisible : Prop :=
  ∀ (s : State) (f : InFlight), s.engine = .busy f → s.pinSet.isSome = true →
    (s.inbox = [] ∨ (∃ rest, s.inbox = .wait :: rest) ∨ ∃ v rest, s.inbox = .inputs v :: rest) →
    ∃ t, step s = .next t ∧
      (f.pos ≠ .store → t.cur = s.cur ∧ t.last = s.last ∧ t.responses = s.responses ∧
        (∃ e, t.trace = s.trace ++ [e]) ∧ ∃ g, t.engine = .busy g ∧ g.op = f.op) ∧
      (f.pos = .store → t.cur = s.chips.toStorage f.acc ∧ t.last = s.last ∧ t.trace = s.trace ∧
        t.engine = .idle ∧ ∃ r, t.responses = s.responses ++ [r]) ∧
      t.pw = s.pw ∧ t.begun = s.begun ∧ t.pinLoad = s.pinLoad ∧ t.pinClken = s.pinClken ∧
      t.pinData = s.pinData ∧ t.pinClk = s.pinClk ∧ t.chips = s.chips ∧ t.dirs = s.dirs ∧
      s.env.KeepsInputs t.env ∧
      (∀ rest, s.inbox = .wait :: rest → t.inbox = rest) ∧
      ((∀ rest, s.inbox ≠ .wait :: rest) → t.inbox = s.inbox)
end

