-- ==== Sys2Proof/Laws/Encoding.lean ====
section
/-! SUPPORT. Command words as five bytes: the fields of a packed word, and that a word is its fields packed. -/

namespace Sys2Proof

/-- A packed word as a number, the opcode in the highest byte. -/
theorem toNat_packWord (op b3 b2 b1 b0 : Byte) : (packWord op b3 b2 b1 b0).toNat =
    op.toNat * 2 ^ 32 + b3.toNat * 2 ^ 24 + b2.toNat * 2 ^ 16 + b1.toNat * 2 ^ 8 + b0.toNat := by
  have h3 := b3.isLt
  have h2 := b2.isLt
  have h1 := b1.isLt
  have h0 := b0.isLt
  unfold packWord
  simp only [BitVec.toNat_append]
  rw [← Nat.shiftLeft_add_eq_or_of_lt (by omega), ← Nat.shiftLeft_add_eq_or_of_lt (by omega),
    ← Nat.shiftLeft_add_eq_or_of_lt (by omega), ← Nat.shiftLeft_add_eq_or_of_lt (by omega)]
  simp only [Nat.shiftLeft_eq]
  omega

@[simp] theorem cmdOpcode_packWord (op b3 b2 b1 b0 : Byte) :
    cmdOpcode (packWord op b3 b2 b1 b0) = op := by
  have h := op.isLt
  have h3 := b3.isLt
  have h2 := b2.isLt
  have h1 := b1.isLt
  have h0 := b0.isLt
  apply BitVec.eq_of_toNat_eq
  simp only [cmdOpcode, BitVec.extractLsb'_toNat, toNat_packWord, Nat.shiftRight_eq_div_pow]
  omega

@[simp] theorem cmdB3_packWord (op b3 b2 b1 b0 : Byte) : cmdB3 (packWord op b3 b2 b1 b0) = b3 := by
  have h3 := b3.isLt
  have h2 := b2.isLt
  have h1 := b1.isLt
  have h0 := b0.isLt
  apply BitVec.eq_of_toNat_eq
  simp only [cmdB3, BitVec.extractLsb'_toNat, toNat_packWord, Nat.shiftRight_eq_div_pow]
  omega

@[simp] theorem cmdB2_packWord (op b3 b2 b1 b0 : Byte) : cmdB2 (packWord op b3 b2 b1 b0) = b2 := by
  have h2 := b2.isLt
  have h1 := b1.isLt
  have h0 := b0.isLt
  apply BitVec.eq_of_toNat_eq
  simp only [cmdB2, BitVec.extractLsb'_toNat, toNat_packWord, Nat.shiftRight_eq_div_pow]
  omega

@[simp] theorem cmdB1_packWord (op b3 b2 b1 b0 : Byte) : cmdB1 (packWord op b3 b2 b1 b0) = b1 := by
  have h1 := b1.isLt
  have h0 := b0.isLt
  apply BitVec.eq_of_toNat_eq
  simp only [cmdB1, BitVec.extractLsb'_toNat, toNat_packWord, Nat.shiftRight_eq_div_pow]
  omega

@[simp] theorem cmdB0_packWord (op b3 b2 b1 b0 : Byte) : cmdB0 (packWord op b3 b2 b1 b0) = b0 := by
  have h0 := b0.isLt
  apply BitVec.eq_of_toNat_eq
  simp only [cmdB0, BitVec.extractLsb'_toNat, toNat_packWord, Nat.shiftRight_eq_div_pow]
  omega

/-- No bit of a word lies outside its five fields (30_encoding R82). -/
theorem packWord_fields (w : CommandWord) :
    packWord (cmdOpcode w) (cmdB3 w) (cmdB2 w) (cmdB1 w) (cmdB0 w) = w := by
  have h := w.isLt
  apply BitVec.eq_of_toNat_eq
  rw [toNat_packWord]
  simp only [cmdOpcode, cmdB3, cmdB2, cmdB1, cmdB0, BitVec.extractLsb'_toNat,
    Nat.shiftRight_eq_div_pow]
  omega

/-- A word masked byte by byte. -/
theorem packWord_and (op b3 b2 b1 b0 op' b3' b2' b1' b0' : Byte) :
    packWord op b3 b2 b1 b0 &&& packWord op' b3' b2' b1' b0' =
      packWord (op &&& op') (b3 &&& b3') (b2 &&& b2') (b1 &&& b1') (b0 &&& b0') := by
  unfold packWord
  apply BitVec.eq_of_getLsbD_eq
  intro j hj
  simp only [BitVec.getLsbD_and, BitVec.getLsbD_append]
  split <;> (try split) <;> (try split) <;> (try split) <;> simp

/-- What a word of format Z must be for the decoder to give an operation. -/
theorem decodeZ_cases {w : CommandWord} {i j : Instr} (h : decodeZ w i = .op j) :
    i = j ∧ w = packWord (cmdOpcode w) 0 0 0 0 := by
  unfold decodeZ at h
  split at h
  · rename_i hc
    simp only [cmdHi0, Bool.and_eq_true, beq_iff_eq] at hc
    cases h
    refine ⟨rfl, ?_⟩
    conv_lhs => rw [← packWord_fields w]
    simp only [hc]
  · cases h

/-- What a word of format V or I must be for the decoder to give an operation. -/
theorem decodeB0_cases {w : CommandWord} {i : Byte → Instr} {j : Instr} (h : decodeB0 w i = .op j) :
    i (cmdB0 w) = j ∧ w = packWord (cmdOpcode w) 0 0 0 (cmdB0 w) := by
  unfold decodeB0 at h
  split at h
  · rename_i hc
    simp only [cmdHi0, Bool.and_eq_true, beq_iff_eq] at hc
    cases h
    refine ⟨rfl, ?_⟩
    conv_lhs => rw [← packWord_fields w]
    simp only [hc]
  · cases h

end Sys2Proof
end

