-- ==== Sys2Proof/Laws/PinMap.lean ====
section
/-! SUPPORT. The pin shadow: read after write, and that a write keeps the canonical form. -/

namespace Sys2Proof.Machine

@[simp] theorem mapGet_mapPut_same {α : Type} (k : Nat) (v : α) (m : PinMap α) :
    mapGet k (mapPut k v m) = some v := by
  induction m with
  | nil => simp [mapPut, mapGet]
  | cons e m ih =>
    obtain ⟨j, x⟩ := e
    simp only [mapPut]
    split
    · simp [mapGet]
    · split
      · simp [mapGet]
      · rename_i h1 h2
        simp [mapGet, Ne.symm h2, ih]

theorem mapGet_mapPut_other {α : Type} {k n : Nat} (v : α) (m : PinMap α) (h : n ≠ k) :
    mapGet n (mapPut k v m) = mapGet n m := by
  induction m with
  | nil => simp [mapPut, mapGet, h.symm]
  | cons e m ih =>
    obtain ⟨j, x⟩ := e
    simp only [mapPut]
    split
    · simp [mapGet, h.symm]
    · split
      · rename_i h1 h2
        subst h2
        simp [mapGet, h.symm]
      · simp [mapGet, ih]

/-- What a write leaves at any key. -/
theorem mapGet_mapPut {α : Type} (k n : Nat) (v : α) (m : PinMap α) :
    mapGet n (mapPut k v m) = if n = k then some v else mapGet n m := by
  split
  · rename_i h
    subst h
    exact mapGet_mapPut_same n v m
  · rename_i h
    exact mapGet_mapPut_other v m h

theorem mem_mapPut {α : Type} {k : Nat} {v : α} {m : PinMap α} {e : Nat × α} (h : e ∈ mapPut k v m) :
    e = (k, v) ∨ e ∈ m := by
  induction m with
  | nil => simpa [mapPut] using h
  | cons f m ih =>
    obtain ⟨j, x⟩ := f
    simp only [mapPut] at h
    split at h
    · simpa using h
    · split at h
      · rcases List.mem_cons.1 h with h | h
        · exact .inl h
        · exact .inr (List.mem_cons_of_mem _ h)
      · rcases List.mem_cons.1 h with h | h
        · exact .inr (h ▸ List.mem_cons_self)
        · exact (ih h).imp id (List.mem_cons_of_mem _)

/-- A write at the number of a pin keeps the canonical form. -/
theorem mapWf_mapPut {α : Type} {k : Nat} {v : α} {m : PinMap α} (hk : k < 256) (h : mapWf m) :
    mapWf (mapPut k v m) := by
  refine ⟨?_, fun e he => ?_⟩
  · obtain ⟨h, -⟩ := h
    induction m with
    | nil => simp [mapPut]
    | cons f m ih =>
      obtain ⟨j, x⟩ := f
      obtain ⟨hj, hm⟩ := List.pairwise_cons.1 h
      simp only [mapPut]
      split
      · rename_i hlt
        refine List.pairwise_cons.2 ⟨fun e he => ?_, h⟩
        rcases List.mem_cons.1 he with rfl | he
        · exact hlt
        · exact Nat.lt_trans hlt (hj e he)
      · split
        · rename_i _ heq
          subst heq
          exact List.pairwise_cons.2 ⟨hj, hm⟩
        · refine List.pairwise_cons.2 ⟨fun e he => ?_, ih hm⟩
          rcases mem_mapPut he with rfl | he
          · exact (by omega : j < k)
          · exact hj e he
  · rcases mem_mapPut he with rfl | he
    · exact hk
    · exact h.2 e he

/-- An event keeps the canonical form of the directions. -/
theorem mapWf_noteDir {m : PinMap Direction} (e : Event) (h : mapWf m) : mapWf (noteDir e m) := by
  cases e with
  | pinMode pin dir => exact mapWf_mapPut pin.isLt h
  | pinWrite _ _ => exact h
  | pinRead _ _ => exact h
  | sleep _ => exact h

/-- An event keeps the canonical form of the levels. -/
theorem mapWf_noteOut {m : PinMap Level} (e : Event) (h : mapWf m) : mapWf (noteOut e m) := by
  cases e with
  | pinMode _ _ => exact h
  | pinWrite pin _ => exact mapWf_mapPut pin.isLt h
  | pinRead _ _ => exact h
  | sleep _ => exact h

end Sys2Proof.Machine
end

