-- ==== Sys2Proof/Laws/State.lean ====
section
/-! SUPPORT. One lemma per field per update of the state, so that no later proof unfolds a record. -/

namespace Sys2Proof.Machine

section
variable (s : State)

@[simp] theorem State.setCur_chips (v : Bitfield) :
    (s.setCur v).chips = s.chips := rfl
@[simp] theorem State.setCur_cur (v : Bitfield) :
    (s.setCur v).cur = s.chips.toStorage v := rfl
@[simp] theorem State.setCur_last (v : Bitfield) :
    (s.setCur v).last = s.last := rfl
@[simp] theorem State.setCur_pw (v : Bitfield) :
    (s.setCur v).pw = s.pw := rfl
@[simp] theorem State.setCur_pinLoad (v : Bitfield) :
    (s.setCur v).pinLoad = s.pinLoad := rfl
@[simp] theorem State.setCur_pinClken (v : Bitfield) :
    (s.setCur v).pinClken = s.pinClken := rfl
@[simp] theorem State.setCur_pinData (v : Bitfield) :
    (s.setCur v).pinData = s.pinData := rfl
@[simp] theorem State.setCur_pinClk (v : Bitfield) :
    (s.setCur v).pinClk = s.pinClk := rfl
@[simp] theorem State.setCur_begun (v : Bitfield) :
    (s.setCur v).begun = s.begun := rfl
@[simp] theorem State.setCur_engine (v : Bitfield) :
    (s.setCur v).engine = s.engine := rfl
@[simp] theorem State.setCur_trace (v : Bitfield) :
    (s.setCur v).trace = s.trace := rfl
@[simp] theorem State.setCur_responses (v : Bitfield) :
    (s.setCur v).responses = s.responses := rfl
@[simp] theorem State.setCur_dirs (v : Bitfield) :
    (s.setCur v).dirs = s.dirs := rfl
@[simp] theorem State.setCur_outs (v : Bitfield) :
    (s.setCur v).outs = s.outs := rfl
@[simp] theorem State.setCur_env (v : Bitfield) :
    (s.setCur v).env = s.env := rfl
@[simp] theorem State.setCur_answers (v : Bitfield) :
    (s.setCur v).answers = s.answers := rfl
@[simp] theorem State.setCur_draws (v : Bitfield) :
    (s.setCur v).draws = s.draws := rfl
@[simp] theorem State.setCur_inbox (v : Bitfield) :
    (s.setCur v).inbox = s.inbox := rfl

@[simp] theorem State.setLast_chips (v : Bitfield) :
    (s.setLast v).chips = s.chips := rfl
@[simp] theorem State.setLast_cur (v : Bitfield) :
    (s.setLast v).cur = s.cur := rfl
@[simp] theorem State.setLast_last (v : Bitfield) :
    (s.setLast v).last = s.chips.toStorage v := rfl
@[simp] theorem State.setLast_pw (v : Bitfield) :
    (s.setLast v).pw = s.pw := rfl
@[simp] theorem State.setLast_pinLoad (v : Bitfield) :
    (s.setLast v).pinLoad = s.pinLoad := rfl
@[simp] theorem State.setLast_pinClken (v : Bitfield) :
    (s.setLast v).pinClken = s.pinClken := rfl
@[simp] theorem State.setLast_pinData (v : Bitfield) :
    (s.setLast v).pinData = s.pinData := rfl
@[simp] theorem State.setLast_pinClk (v : Bitfield) :
    (s.setLast v).pinClk = s.pinClk := rfl
@[simp] theorem State.setLast_begun (v : Bitfield) :
    (s.setLast v).begun = s.begun := rfl
@[simp] theorem State.setLast_engine (v : Bitfield) :
    (s.setLast v).engine = s.engine := rfl
@[simp] theorem State.setLast_trace (v : Bitfield) :
    (s.setLast v).trace = s.trace := rfl
@[simp] theorem State.setLast_responses (v : Bitfield) :
    (s.setLast v).responses = s.responses := rfl
@[simp] theorem State.setLast_dirs (v : Bitfield) :
    (s.setLast v).dirs = s.dirs := rfl
@[simp] theorem State.setLast_outs (v : Bitfield) :
    (s.setLast v).outs = s.outs := rfl
@[simp] theorem State.setLast_env (v : Bitfield) :
    (s.setLast v).env = s.env := rfl
@[simp] theorem State.setLast_answers (v : Bitfield) :
    (s.setLast v).answers = s.answers := rfl
@[simp] theorem State.setLast_draws (v : Bitfield) :
    (s.setLast v).draws = s.draws := rfl
@[simp] theorem State.setLast_inbox (v : Bitfield) :
    (s.setLast v).inbox = s.inbox := rfl

@[simp] theorem State.setPw_chips (v : BitVec 8) :
    (s.setPw v).chips = s.chips := rfl
@[simp] theorem State.setPw_cur (v : BitVec 8) :
    (s.setPw v).cur = s.cur := rfl
@[simp] theorem State.setPw_last (v : BitVec 8) :
    (s.setPw v).last = s.last := rfl
@[simp] theorem State.setPw_pw (v : BitVec 8) :
    (s.setPw v).pw = v := rfl
@[simp] theorem State.setPw_pinLoad (v : BitVec 8) :
    (s.setPw v).pinLoad = s.pinLoad := rfl
@[simp] theorem State.setPw_pinClken (v : BitVec 8) :
    (s.setPw v).pinClken = s.pinClken := rfl
@[simp] theorem State.setPw_pinData (v : BitVec 8) :
    (s.setPw v).pinData = s.pinData := rfl
@[simp] theorem State.setPw_pinClk (v : BitVec 8) :
    (s.setPw v).pinClk = s.pinClk := rfl
@[simp] theorem State.setPw_begun (v : BitVec 8) :
    (s.setPw v).begun = s.begun := rfl
@[simp] theorem State.setPw_engine (v : BitVec 8) :
    (s.setPw v).engine = s.engine := rfl
@[simp] theorem State.setPw_trace (v : BitVec 8) :
    (s.setPw v).trace = s.trace := rfl
@[simp] theorem State.setPw_responses (v : BitVec 8) :
    (s.setPw v).responses = s.responses := rfl
@[simp] theorem State.setPw_dirs (v : BitVec 8) :
    (s.setPw v).dirs = s.dirs := rfl
@[simp] theorem State.setPw_outs (v : BitVec 8) :
    (s.setPw v).outs = s.outs := rfl
@[simp] theorem State.setPw_env (v : BitVec 8) :
    (s.setPw v).env = s.env := rfl
@[simp] theorem State.setPw_answers (v : BitVec 8) :
    (s.setPw v).answers = s.answers := rfl
@[simp] theorem State.setPw_draws (v : BitVec 8) :
    (s.setPw v).draws = s.draws := rfl
@[simp] theorem State.setPw_inbox (v : BitVec 8) :
    (s.setPw v).inbox = s.inbox := rfl

@[simp] theorem State.setPins_chips (p : Pins) :
    (s.setPins p).chips = s.chips := rfl
@[simp] theorem State.setPins_cur (p : Pins) :
    (s.setPins p).cur = s.cur := rfl
@[simp] theorem State.setPins_last (p : Pins) :
    (s.setPins p).last = s.last := rfl
@[simp] theorem State.setPins_pw (p : Pins) :
    (s.setPins p).pw = s.pw := rfl
@[simp] theorem State.setPins_pinLoad (p : Pins) :
    (s.setPins p).pinLoad = some p.load := rfl
@[simp] theorem State.setPins_pinClken (p : Pins) :
    (s.setPins p).pinClken = some p.clken := rfl
@[simp] theorem State.setPins_pinData (p : Pins) :
    (s.setPins p).pinData = some p.data := rfl
@[simp] theorem State.setPins_pinClk (p : Pins) :
    (s.setPins p).pinClk = some p.clk := rfl
@[simp] theorem State.setPins_begun (p : Pins) :
    (s.setPins p).begun = s.begun := rfl
@[simp] theorem State.setPins_engine (p : Pins) :
    (s.setPins p).engine = s.engine := rfl
@[simp] theorem State.setPins_trace (p : Pins) :
    (s.setPins p).trace = s.trace := rfl
@[simp] theorem State.setPins_responses (p : Pins) :
    (s.setPins p).responses = s.responses := rfl
@[simp] theorem State.setPins_dirs (p : Pins) :
    (s.setPins p).dirs = s.dirs := rfl
@[simp] theorem State.setPins_outs (p : Pins) :
    (s.setPins p).outs = s.outs := rfl
@[simp] theorem State.setPins_env (p : Pins) :
    (s.setPins p).env = s.env := rfl
@[simp] theorem State.setPins_answers (p : Pins) :
    (s.setPins p).answers = s.answers := rfl
@[simp] theorem State.setPins_draws (p : Pins) :
    (s.setPins p).draws = s.draws := rfl
@[simp] theorem State.setPins_inbox (p : Pins) :
    (s.setPins p).inbox = s.inbox := rfl

@[simp] theorem State.setBegun_chips :
    (s.setBegun).chips = s.chips := rfl
@[simp] theorem State.setBegun_cur :
    (s.setBegun).cur = s.cur := rfl
@[simp] theorem State.setBegun_last :
    (s.setBegun).last = s.last := rfl
@[simp] theorem State.setBegun_pw :
    (s.setBegun).pw = s.pw := rfl
@[simp] theorem State.setBegun_pinLoad :
    (s.setBegun).pinLoad = s.pinLoad := rfl
@[simp] theorem State.setBegun_pinClken :
    (s.setBegun).pinClken = s.pinClken := rfl
@[simp] theorem State.setBegun_pinData :
    (s.setBegun).pinData = s.pinData := rfl
@[simp] theorem State.setBegun_pinClk :
    (s.setBegun).pinClk = s.pinClk := rfl
@[simp] theorem State.setBegun_begun :
    (s.setBegun).begun = true := rfl
@[simp] theorem State.setBegun_engine :
    (s.setBegun).engine = s.engine := rfl
@[simp] theorem State.setBegun_trace :
    (s.setBegun).trace = s.trace := rfl
@[simp] theorem State.setBegun_responses :
    (s.setBegun).responses = s.responses := rfl
@[simp] theorem State.setBegun_dirs :
    (s.setBegun).dirs = s.dirs := rfl
@[simp] theorem State.setBegun_outs :
    (s.setBegun).outs = s.outs := rfl
@[simp] theorem State.setBegun_env :
    (s.setBegun).env = s.env := rfl
@[simp] theorem State.setBegun_answers :
    (s.setBegun).answers = s.answers := rfl
@[simp] theorem State.setBegun_draws :
    (s.setBegun).draws = s.draws := rfl
@[simp] theorem State.setBegun_inbox :
    (s.setBegun).inbox = s.inbox := rfl

@[simp] theorem State.setEngine_chips (e : Engine) :
    (s.setEngine e).chips = s.chips := rfl
@[simp] theorem State.setEngine_cur (e : Engine) :
    (s.setEngine e).cur = s.cur := rfl
@[simp] theorem State.setEngine_last (e : Engine) :
    (s.setEngine e).last = s.last := rfl
@[simp] theorem State.setEngine_pw (e : Engine) :
    (s.setEngine e).pw = s.pw := rfl
@[simp] theorem State.setEngine_pinLoad (e : Engine) :
    (s.setEngine e).pinLoad = s.pinLoad := rfl
@[simp] theorem State.setEngine_pinClken (e : Engine) :
    (s.setEngine e).pinClken = s.pinClken := rfl
@[simp] theorem State.setEngine_pinData (e : Engine) :
    (s.setEngine e).pinData = s.pinData := rfl
@[simp] theorem State.setEngine_pinClk (e : Engine) :
    (s.setEngine e).pinClk = s.pinClk := rfl
@[simp] theorem State.setEngine_begun (e : Engine) :
    (s.setEngine e).begun = s.begun := rfl
@[simp] theorem State.setEngine_engine (e : Engine) :
    (s.setEngine e).engine = e := rfl
@[simp] theorem State.setEngine_trace (e : Engine) :
    (s.setEngine e).trace = s.trace := rfl
@[simp] theorem State.setEngine_responses (e : Engine) :
    (s.setEngine e).responses = s.responses := rfl
@[simp] theorem State.setEngine_dirs (e : Engine) :
    (s.setEngine e).dirs = s.dirs := rfl
@[simp] theorem State.setEngine_outs (e : Engine) :
    (s.setEngine e).outs = s.outs := rfl
@[simp] theorem State.setEngine_env (e : Engine) :
    (s.setEngine e).env = s.env := rfl
@[simp] theorem State.setEngine_answers (e : Engine) :
    (s.setEngine e).answers = s.answers := rfl
@[simp] theorem State.setEngine_draws (e : Engine) :
    (s.setEngine e).draws = s.draws := rfl
@[simp] theorem State.setEngine_inbox (e : Engine) :
    (s.setEngine e).inbox = s.inbox := rfl

@[simp] theorem State.emit_chips (p : Pins) (e : Event) :
    (s.emit p e).chips = s.chips := rfl
@[simp] theorem State.emit_cur (p : Pins) (e : Event) :
    (s.emit p e).cur = s.cur := rfl
@[simp] theorem State.emit_last (p : Pins) (e : Event) :
    (s.emit p e).last = s.last := rfl
@[simp] theorem State.emit_pw (p : Pins) (e : Event) :
    (s.emit p e).pw = s.pw := rfl
@[simp] theorem State.emit_pinLoad (p : Pins) (e : Event) :
    (s.emit p e).pinLoad = s.pinLoad := rfl
@[simp] theorem State.emit_pinClken (p : Pins) (e : Event) :
    (s.emit p e).pinClken = s.pinClken := rfl
@[simp] theorem State.emit_pinData (p : Pins) (e : Event) :
    (s.emit p e).pinData = s.pinData := rfl
@[simp] theorem State.emit_pinClk (p : Pins) (e : Event) :
    (s.emit p e).pinClk = s.pinClk := rfl
@[simp] theorem State.emit_begun (p : Pins) (e : Event) :
    (s.emit p e).begun = s.begun := rfl
@[simp] theorem State.emit_engine (p : Pins) (e : Event) :
    (s.emit p e).engine = s.engine := rfl
@[simp] theorem State.emit_trace (p : Pins) (e : Event) :
    (s.emit p e).trace = s.trace ++ [e] := rfl
@[simp] theorem State.emit_responses (p : Pins) (e : Event) :
    (s.emit p e).responses = s.responses := rfl
@[simp] theorem State.emit_dirs (p : Pins) (e : Event) :
    (s.emit p e).dirs = noteDir e s.dirs := rfl
@[simp] theorem State.emit_outs (p : Pins) (e : Event) :
    (s.emit p e).outs = noteOut e s.outs := rfl
@[simp] theorem State.emit_env (p : Pins) (e : Event) :
    (s.emit p e).env = s.env.react s.chips p s.outs e := rfl
@[simp] theorem State.emit_answers (p : Pins) (e : Event) :
    (s.emit p e).answers = s.answers := rfl
@[simp] theorem State.emit_draws (p : Pins) (e : Event) :
    (s.emit p e).draws = s.draws := rfl
@[simp] theorem State.emit_inbox (p : Pins) (e : Event) :
    (s.emit p e).inbox = s.inbox := rfl

@[simp] theorem State.respond_chips (v : ResponseWord) :
    (s.respond v).chips = s.chips := rfl
@[simp] theorem State.respond_cur (v : ResponseWord) :
    (s.respond v).cur = s.cur := rfl
@[simp] theorem State.respond_last (v : ResponseWord) :
    (s.respond v).last = s.last := rfl
@[simp] theorem State.respond_pw (v : ResponseWord) :
    (s.respond v).pw = s.pw := rfl
@[simp] theorem State.respond_pinLoad (v : ResponseWord) :
    (s.respond v).pinLoad = s.pinLoad := rfl
@[simp] theorem State.respond_pinClken (v : ResponseWord) :
    (s.respond v).pinClken = s.pinClken := rfl
@[simp] theorem State.respond_pinData (v : ResponseWord) :
    (s.respond v).pinData = s.pinData := rfl
@[simp] theorem State.respond_pinClk (v : ResponseWord) :
    (s.respond v).pinClk = s.pinClk := rfl
@[simp] theorem State.respond_begun (v : ResponseWord) :
    (s.respond v).begun = s.begun := rfl
@[simp] theorem State.respond_engine (v : ResponseWord) :
    (s.respond v).engine = s.engine := rfl
@[simp] theorem State.respond_trace (v : ResponseWord) :
    (s.respond v).trace = s.trace := rfl
@[simp] theorem State.respond_responses (v : ResponseWord) :
    (s.respond v).responses = s.responses ++ [v] := rfl
@[simp] theorem State.respond_dirs (v : ResponseWord) :
    (s.respond v).dirs = s.dirs := rfl
@[simp] theorem State.respond_outs (v : ResponseWord) :
    (s.respond v).outs = s.outs := rfl
@[simp] theorem State.respond_env (v : ResponseWord) :
    (s.respond v).env = s.env := rfl
@[simp] theorem State.respond_answers (v : ResponseWord) :
    (s.respond v).answers = s.answers := rfl
@[simp] theorem State.respond_draws (v : ResponseWord) :
    (s.respond v).draws = s.draws := rfl
@[simp] theorem State.respond_inbox (v : ResponseWord) :
    (s.respond v).inbox = s.inbox := rfl

@[simp] theorem State.setInbox_chips (l : List HostAction) :
    (s.setInbox l).chips = s.chips := rfl
@[simp] theorem State.setInbox_cur (l : List HostAction) :
    (s.setInbox l).cur = s.cur := rfl
@[simp] theorem State.setInbox_last (l : List HostAction) :
    (s.setInbox l).last = s.last := rfl
@[simp] theorem State.setInbox_pw (l : List HostAction) :
    (s.setInbox l).pw = s.pw := rfl
@[simp] theorem State.setInbox_pinLoad (l : List HostAction) :
    (s.setInbox l).pinLoad = s.pinLoad := rfl
@[simp] theorem State.setInbox_pinClken (l : List HostAction) :
    (s.setInbox l).pinClken = s.pinClken := rfl
@[simp] theorem State.setInbox_pinData (l : List HostAction) :
    (s.setInbox l).pinData = s.pinData := rfl
@[simp] theorem State.setInbox_pinClk (l : List HostAction) :
    (s.setInbox l).pinClk = s.pinClk := rfl
@[simp] theorem State.setInbox_begun (l : List HostAction) :
    (s.setInbox l).begun = s.begun := rfl
@[simp] theorem State.setInbox_engine (l : List HostAction) :
    (s.setInbox l).engine = s.engine := rfl
@[simp] theorem State.setInbox_trace (l : List HostAction) :
    (s.setInbox l).trace = s.trace := rfl
@[simp] theorem State.setInbox_responses (l : List HostAction) :
    (s.setInbox l).responses = s.responses := rfl
@[simp] theorem State.setInbox_dirs (l : List HostAction) :
    (s.setInbox l).dirs = s.dirs := rfl
@[simp] theorem State.setInbox_outs (l : List HostAction) :
    (s.setInbox l).outs = s.outs := rfl
@[simp] theorem State.setInbox_env (l : List HostAction) :
    (s.setInbox l).env = s.env := rfl
@[simp] theorem State.setInbox_answers (l : List HostAction) :
    (s.setInbox l).answers = s.answers := rfl
@[simp] theorem State.setInbox_draws (l : List HostAction) :
    (s.setInbox l).draws = s.draws := rfl
@[simp] theorem State.setInbox_inbox (l : List HostAction) :
    (s.setInbox l).inbox = l := rfl

@[simp] theorem State.setInputs_chips (v : Bitfield) :
    (s.setInputs v).chips = s.chips := rfl
@[simp] theorem State.setInputs_cur (v : Bitfield) :
    (s.setInputs v).cur = s.cur := rfl
@[simp] theorem State.setInputs_last (v : Bitfield) :
    (s.setInputs v).last = s.last := rfl
@[simp] theorem State.setInputs_pw (v : Bitfield) :
    (s.setInputs v).pw = s.pw := rfl
@[simp] theorem State.setInputs_pinLoad (v : Bitfield) :
    (s.setInputs v).pinLoad = s.pinLoad := rfl
@[simp] theorem State.setInputs_pinClken (v : Bitfield) :
    (s.setInputs v).pinClken = s.pinClken := rfl
@[simp] theorem State.setInputs_pinData (v : Bitfield) :
    (s.setInputs v).pinData = s.pinData := rfl
@[simp] theorem State.setInputs_pinClk (v : Bitfield) :
    (s.setInputs v).pinClk = s.pinClk := rfl
@[simp] theorem State.setInputs_begun (v : Bitfield) :
    (s.setInputs v).begun = s.begun := rfl
@[simp] theorem State.setInputs_engine (v : Bitfield) :
    (s.setInputs v).engine = s.engine := rfl
@[simp] theorem State.setInputs_trace (v : Bitfield) :
    (s.setInputs v).trace = s.trace := rfl
@[simp] theorem State.setInputs_responses (v : Bitfield) :
    (s.setInputs v).responses = s.responses := rfl
@[simp] theorem State.setInputs_dirs (v : Bitfield) :
    (s.setInputs v).dirs = s.dirs := rfl
@[simp] theorem State.setInputs_outs (v : Bitfield) :
    (s.setInputs v).outs = s.outs := rfl
@[simp] theorem State.setInputs_env (v : Bitfield) :
    (s.setInputs v).env = s.env.setInputs s.chips v := rfl
@[simp] theorem State.setInputs_answers (v : Bitfield) :
    (s.setInputs v).answers = s.answers := rfl
@[simp] theorem State.setInputs_draws (v : Bitfield) :
    (s.setInputs v).draws = s.draws := rfl
@[simp] theorem State.setInputs_inbox (v : Bitfield) :
    (s.setInputs v).inbox = s.inbox := rfl

@[simp] theorem State.applyReset_chips :
    s.applyReset.chips = s.chips := rfl
@[simp] theorem State.applyReset_cur :
    s.applyReset.cur = 0 := rfl
@[simp] theorem State.applyReset_last :
    s.applyReset.last = 0 := rfl
@[simp] theorem State.applyReset_pw :
    s.applyReset.pw = Config.pwDefault := rfl
@[simp] theorem State.applyReset_pinLoad :
    s.applyReset.pinLoad = none := rfl
@[simp] theorem State.applyReset_pinClken :
    s.applyReset.pinClken = none := rfl
@[simp] theorem State.applyReset_pinData :
    s.applyReset.pinData = none := rfl
@[simp] theorem State.applyReset_pinClk :
    s.applyReset.pinClk = none := rfl
@[simp] theorem State.applyReset_begun :
    s.applyReset.begun = false := rfl
@[simp] theorem State.applyReset_engine :
    s.applyReset.engine = .idle := rfl
@[simp] theorem State.applyReset_trace :
    s.applyReset.trace = [] := rfl
@[simp] theorem State.applyReset_responses :
    s.applyReset.responses = [] := rfl
@[simp] theorem State.applyReset_dirs :
    s.applyReset.dirs = [] := rfl
@[simp] theorem State.applyReset_outs :
    s.applyReset.outs = [] := rfl
@[simp] theorem State.applyReset_env :
    s.applyReset.env = s.env := rfl
@[simp] theorem State.applyReset_answers :
    s.applyReset.answers = s.answers := rfl
@[simp] theorem State.applyReset_draws :
    s.applyReset.draws = s.draws := rfl
@[simp] theorem State.applyReset_inbox :
    s.applyReset.inbox = s.inbox := rfl

end

end Sys2Proof.Machine
end

