-- ==== Sys2Proof/Laws/Ops.lean ====
section
/-! SUPPORT. What each shared operation does, said once: widths, registers, draws, reads of the data pin. -/

namespace Sys2Proof

/-- A sample has 8 to 64 bits. -/
theorem ChipCount.dataWidth_bounds (c : ChipCount) : 8 ≤ c.dataWidth ∧ c.dataWidth ≤ 64 := by
  have h1 := c.pos
  have h2 := c.le_eight
  unfold ChipCount.dataWidth
  omega

/-- The storage holds the sample and fits its home. -/
theorem ChipCount.storageWidth_bounds (c : ChipCount) :
    c.dataWidth ≤ c.storageWidth ∧ c.storageWidth ≤ 64 := by
  have h := c.dataWidth_bounds
  unfold ChipCount.storageWidth
  split
  · omega
  · split
    · omega
    · split <;> omega

theorem ChipCount.getLsbD_toStorage (c : ChipCount) (v : Bitfield) (j : Nat) :
    (c.toStorage v).getLsbD j = (decide (j < c.storageWidth) && v.getLsbD j) := by
  have h := c.storageWidth_bounds
  simp only [ChipCount.toStorage, BitVec.getLsbD_setWidth]
  by_cases hj : j < c.storageWidth
  · simp [hj, show j < 64 by omega]
  · simp [hj]

theorem ChipCount.getLsbD_toData (c : ChipCount) (v : Bitfield) (j : Nat) :
    (c.toData v).getLsbD j = (decide (j < c.dataWidth) && v.getLsbD j) := by
  have h := c.dataWidth_bounds
  simp only [ChipCount.toData, BitVec.getLsbD_setWidth]
  by_cases hj : j < c.dataWidth
  · simp [hj, show j < 64 by omega]
  · simp [hj]

theorem ChipCount.toNat_toStorage (c : ChipCount) (v : Bitfield) :
    (c.toStorage v).toNat = v.toNat % 2 ^ c.storageWidth := by
  have h := c.storageWidth_bounds
  have h2 : v.toNat % 2 ^ c.storageWidth < 2 ^ 64 :=
    Nat.lt_of_lt_of_le (Nat.mod_lt _ (by positivity)) (Nat.pow_le_pow_right (by omega) h.2)
  simp only [ChipCount.toStorage, BitVec.toNat_setWidth]
  exact Nat.mod_eq_of_lt h2

/-- A value with no bit from `W` up is stored unchanged. -/
theorem ChipCount.toStorage_of_lt {c : ChipCount} {v : Bitfield} (h : v.toNat < 2 ^ c.dataWidth) :
    c.toStorage v = v := by
  apply BitVec.eq_of_toNat_eq
  rw [c.toNat_toStorage]
  exact Nat.mod_eq_of_lt (Nat.lt_of_lt_of_le h (Nat.pow_le_pow_right (by omega) c.storageWidth_bounds.1))

end Sys2Proof

namespace Sys2Proof.Machine

/-- `pinSet` gives pins exactly when BEGIN's flag is set and all four registers hold values. -/
theorem State.pinSet_eq_some {s : State} {p : Pins} :
    s.pinSet = some p ↔ s.begun = true ∧ s.pinLoad = some p.load ∧ s.pinClken = some p.clken ∧
      s.pinData = some p.data ∧ s.pinClk = some p.clk := by
  constructor
  · intro h
    unfold State.pinSet at h
    split at h
    · rename_i h1 h2 h3 h4 h5
      cases h
      exact ⟨h1, h2, h3, h4, h5⟩
    · cases h
  · rintro ⟨h1, h2, h3, h4, h5⟩
    simp [State.pinSet, h1, h2, h3, h4, h5]

/-- A draw changes the environment's answers and the counter of free values, and nothing else. -/
theorem State.draw_snd (s : State) :
    s.draw.2 = { s with answers := s.draw.2.answers, draws := s.draw.2.draws } := by
  unfold State.draw
  split <;> rfl

/-- So does asking for the level on the data line. -/
theorem State.dataLevel_snd (s : State) :
    s.dataLevel.2 = { s with answers := s.dataLevel.2.answers, draws := s.dataLevel.2.draws } := by
  unfold State.dataLevel
  split
  · exact s.draw_snd
  · split
    · exact s.draw_snd
    · rfl

@[simp] theorem State.pinRead_fst (p : Pins) (s : State) : (s.pinRead p).1 = s.dataLevel.1 := rfl

/-- A read of the data pin: one event more, and what the environment keeps. -/
theorem State.pinRead_snd (p : Pins) (s : State) :
    (s.pinRead p).2 = { s with
      trace := s.trace ++ [.pinRead p.data (s.pinRead p).1]
      env := (s.pinRead p).2.env
      answers := (s.pinRead p).2.answers
      draws := (s.pinRead p).2.draws } := by
  have h := s.dataLevel_snd
  unfold State.pinRead State.emit
  dsimp only
  rw [h]
  rfl

/-- A read asks SimChain for the level only: it stays as it was. -/
theorem State.pinRead_env (p : Pins) (s : State) : (s.pinRead p).2.env = s.env := by
  have h : s.dataLevel.2.env = s.env := by rw [s.dataLevel_snd]
  simp only [State.pinRead, State.emit_env, h]
  cases s.env <;> rfl

theorem Environment.react_oracle (c : ChipCount) (p : Pins) (outs : PinMap Level) (e : Event) :
    Environment.oracle.react c p outs e = .oracle := rfl

/-- The bits of `ACC` after one insertion. -/
theorem getLsbD_insertBit (acc : Bitfield) {n : Nat} (hn : n < 64) (b : Bool) (j : Nat) :
    (insertBit acc n b).getLsbD j = (acc.getLsbD j || (decide (j = n) && b)) := by
  simp only [insertBit, BitVec.getLsbD_or, BitVec.getLsbD_shiftLeft, BitVec.getLsbD_setWidth,
    BitVec.getLsbD_ofBool]
  by_cases hj : j = n
  · subst hj
    simp [hn]
  · by_cases hlt : j < n
    · simp [hlt, hj]
    · simp [hj, show j - n ≠ 0 by omega]

end Sys2Proof.Machine
end

