-- ==== Sys2Proof/Laws/PerInstr.lean ====
section
/-! SUPPORT. Facts about every constructor of Instr as syntax: the opcode field of its command word. -/

namespace Sys2Proof.Laws.OpcodeField

/-- Bits 39 to 32 of the command word hold the operation's opcode, one of 0x01 to 0x0E
(30_encoding R82, R87). -/
def Statement (i : Instr) : Prop :=
  cmdOpcode (encode i) = i.opcode ∧ 0x01 ≤ i.opcode.toNat ∧ i.opcode.toNat ≤ 0x0E

theorem begin (ld ce da ck : PinId) : Statement (.begin ld ce da ck) := by
  simp [Statement, encode, Instr.opcode]

theorem getpw : Statement .getpw := by simp [Statement, encode, Instr.opcode]

theorem setpw (value : Byte) : Statement (.setpw value) := by simp [Statement, encode, Instr.opcode]

theorem getdw : Statement .getdw := by simp [Statement, encode, Instr.opcode]

theorem read : Statement .read := by simp [Statement, encode, Instr.opcode]

theorem update : Statement .update := by simp [Statement, encode, Instr.opcode]

theorem chg : Statement .chg := by simp [Statement, encode, Instr.opcode]

theorem chgi (id : Byte) : Statement (.chgi id) := by simp [Statement, encode, Instr.opcode]

theorem state (id : Byte) : Statement (.state id) := by simp [Statement, encode, Instr.opcode]

theorem last (id : Byte) : Statement (.last id) := by simp [Statement, encode, Instr.opcode]

theorem pressed (id : Byte) : Statement (.pressed id) := by simp [Statement, encode, Instr.opcode]

theorem released (id : Byte) : Statement (.released id) := by simp [Statement, encode, Instr.opcode]

theorem getlast : Statement .getlast := by simp [Statement, encode, Instr.opcode]

theorem getcur : Statement .getcur := by simp [Statement, encode, Instr.opcode]

end Sys2Proof.Laws.OpcodeField
end

