-- ==== Sys2Proof/Laws/Sampling.lean ====
section
/-! SUPPORT. What the load phase, the clock pulse and the shift loop do, said once. -/

namespace Sys2Proof.Machine

/-- The load phase adds its five events and changes levels and environment. -/
theorem loadPhase_spec (p : Pins) (s : State) :
    loadPhase p s = { s with
      trace := s.trace ++ loadEvents p s.pw
      outs := (loadPhase p s).outs
      env := (loadPhase p s).env } := by
  simp [loadPhase, loadEvents, State.emit, noteDir]

/-- A clock pulse adds its three events and changes levels and environment. -/
theorem clockPulse_spec (p : Pins) (s : State) :
    clockPulse p s = { s with
      trace := s.trace ++ [.pinWrite p.clk .high, .sleep s.pw, .pinWrite p.clk .low]
      outs := (clockPulse p s).outs
      env := (clockPulse p s).env } := by
  simp [clockPulse, State.emit, noteDir]

/-- The levels after the load phase. -/
theorem loadPhase_outs (p : Pins) (s : State) :
    (loadPhase p s).outs = mapPut p.clken.toNat .low (mapPut p.load.toNat .high
      (mapPut p.load.toNat .low (mapPut p.clken.toNat .high s.outs))) := rfl

/-- The levels after a clock pulse. -/
theorem clockPulse_outs (p : Pins) (s : State) :
    (clockPulse p s).outs = mapPut p.clk.toNat .low (mapPut p.clk.toNat .high s.outs) := rfl

/-- A read of the data pin, with what the environment answers and keeps named. -/
theorem pinRead_spec (p : Pins) (s : State) : ∃ (l : Level) (a : List Level) (d : Nat),
    s.pinRead p = (l, { s with trace := s.trace ++ [.pinRead p.data l], answers := a, draws := d }) := by
  have h1 := s.pinRead_snd p
  have h2 := s.pinRead_env p
  rw [h2] at h1
  exact ⟨_, _, _, Prod.ext rfl h1⟩

/-- The shift loop with `n` iterations left reads `n` levels: its events, the bits of `ACC`, and that
nothing else changes but the levels of the clock line and the environment. -/
theorem shiftLoop_spec (p : Pins) (n : Nat) (hn : n ≤ 64) : ∀ (acc : Bitfield) (s : State),
    ∃ (ls : List Level) (r : Bitfield) (o : PinMap Level) (e : Environment) (a : List Level) (d : Nat),
      ls.length = n ∧
      shiftLoop p n acc s = (r, { s with
        trace := s.trace ++ ls.flatMap (bitEvents p s.pw), outs := o, env := e, answers := a, draws := d }) ∧
      ∀ j, r.getLsbD j = (acc.getLsbD j || (decide (j < n) && lvl (ls.getD (n - 1 - j) .low))) := by
  induction n with
  | zero =>
    intro acc s
    exact ⟨[], acc, s.outs, s.env, s.answers, s.draws, rfl, by simp [shiftLoop], by simp⟩
  | succ n ih =>
    intro acc s
    obtain ⟨l, a, d, hl⟩ := pinRead_spec p s
    obtain ⟨ls, r, o, e, a', d', hlen, hst, hacc⟩ := ih (by omega)
      (insertBit acc n (lvl l)) (clockPulse p (s.pinRead p).2)
    refine ⟨l :: ls, r, o, e, a', d', by simp [hlen], ?_, fun j => ?_⟩
    · have h1 : (s.pinRead p).1 = l := by rw [hl]
      rw [shiftLoop, h1, hst, clockPulse_spec, hl]
      simp [bitEvents]
    · rw [hacc, getLsbD_insertBit acc (show n < 64 by omega)]
      by_cases h1 : j < n
      · have h2 : n - j = (n - 1 - j) + 1 := by omega
        simp [h1, h2, show j < n + 1 by omega, show j ≠ n by omega]
      · by_cases h2 : j = n
        · subst h2
          simp
        · simp [h1, h2, show ¬ j < n + 1 by omega]

/-- The shift loop leaves the level of every pin but the clock line. -/
theorem shiftLoop_outs_other (p : Pins) {k : Nat} (hk : k ≠ p.clk.toNat) (n : Nat) :
    ∀ (acc : Bitfield) (s : State), mapGet k (shiftLoop p n acc s).2.outs = mapGet k s.outs := by
  induction n with
  | zero => intro acc s; rfl
  | succ n ih =>
    intro acc s
    have h : (s.pinRead p).2.outs = s.outs := by rw [s.pinRead_snd p]
    simp only [shiftLoop, ih, clockPulse_outs, h]
    rw [mapGet_mapPut_other _ _ hk, mapGet_mapPut_other _ _ hk]

/-- The shift loop ends with the clock line LOW. -/
theorem shiftLoop_outs_clk (p : Pins) (n : Nat) : ∀ (acc : Bitfield) (s : State),
    mapGet p.clk.toNat s.outs = some .low →
    mapGet p.clk.toNat (shiftLoop p n acc s).2.outs = some .low := by
  induction n with
  | zero => intro acc s h; exact h
  | succ n ih =>
    intro acc s _
    simp only [shiftLoop]
    exact ih _ _ (by simp [clockPulse_outs])

theorem Environment.KeepsInputs.refl (e : Environment) : e.KeepsInputs e :=
  ⟨id, fun m h => ⟨m.shift, m.garbled, h⟩⟩

theorem Environment.KeepsInputs.trans {e f g : Environment} (h : e.KeepsInputs f)
    (h' : f.KeepsInputs g) : e.KeepsInputs g := by
  refine ⟨fun he => h'.1 (h.1 he), fun m he => ?_⟩
  obtain ⟨q, b, hf⟩ := h.2 m he
  obtain ⟨q', b', hg⟩ := h'.2 _ hf
  exact ⟨q', b', hg⟩

/-- SimChain's answer to an event writes its shift register and its garbled mark only. -/
theorem SimChain.react_spec (c : ChipCount) (p : Pins) (outs : PinMap Level) (e : Event) (m : SimChain) :
    m.react c p outs e = { m with
      shift := (m.react c p outs e).shift, garbled := (m.react c p outs e).garbled } := by
  cases e with
  | pinMode pin dir => rfl
  | pinWrite pin level =>
    cases level with
    | low =>
      simp only [SimChain.react]
      split <;> rfl
    | high =>
      simp only [SimChain.react]
      split <;> rfl
  | pinRead pin answer => rfl
  | sleep d =>
    simp only [SimChain.react]
    split <;> rfl

/-- So does the environment's. -/
theorem Environment.react_keepsInputs (c : ChipCount) (p : Pins) (outs : PinMap Level) (e : Event)
    (env : Environment) : env.KeepsInputs (env.react c p outs e) := by
  refine ⟨fun h => by rw [h]; rfl, fun m h => ?_⟩
  rw [h]
  exact ⟨_, _, congrArg Environment.simChain (m.react_spec c p outs e)⟩

theorem State.emit_keepsInputs (p : Pins) (e : Event) (s : State) : s.env.KeepsInputs (s.emit p e).env :=
  Environment.react_keepsInputs _ _ _ _ _

theorem loadPhase_keepsInputs (p : Pins) (s : State) : s.env.KeepsInputs (loadPhase p s).env :=
  ((((s.emit_keepsInputs p _).trans (State.emit_keepsInputs p _ _)).trans
    (State.emit_keepsInputs p _ _)).trans (State.emit_keepsInputs p _ _)).trans
    (State.emit_keepsInputs p _ _)

theorem clockPulse_keepsInputs (p : Pins) (s : State) : s.env.KeepsInputs (clockPulse p s).env :=
  ((s.emit_keepsInputs p _).trans (State.emit_keepsInputs p _ _)).trans (State.emit_keepsInputs p _ _)

theorem shiftLoop_keepsInputs (p : Pins) (n : Nat) : ∀ (acc : Bitfield) (s : State),
    s.env.KeepsInputs (shiftLoop p n acc s).2.env := by
  induction n with
  | zero => intro acc s; exact .refl _
  | succ n ih =>
    intro acc s
    have h := clockPulse_keepsInputs p (s.pinRead p).2
    rw [s.pinRead_env p] at h
    exact h.trans (ih _ _)

/-- The environment answers every read of a shift loop by a draw: it is the oracle, or a SimChain garbled
by too short a `Sleep` that no write of the clock line loads anew. -/
def Drawing (p : Pins) (e : Environment) : Prop :=
  e = .oracle ∨ (p.load ≠ p.clk ∧ ∃ m, e = .simChain m ∧ m.garbled = true)

/-- Such an environment stays so through an iteration. -/
theorem Drawing.clockPulse {p : Pins} {s : State} (h : Drawing p s.env) :
    Drawing p (clockPulse p s).env := by
  rcases h with h | ⟨hne, m, h, hg⟩
  · left
    simp [Machine.clockPulse, h, Environment.react]
  · right
    refine ⟨hne, ?_⟩
    simp only [Machine.clockPulse, State.emit_env, h, Environment.react]
    refine ⟨_, rfl, ?_⟩
    simp only [SimChain.react, SimChain.shiftOnce, hne.symm, if_false]
    split <;> split <;> simp_all

/-- Such an environment answers a read by a draw. -/
theorem Drawing.dataLevel {p : Pins} {s : State} (h : Drawing p s.env) : s.dataLevel = s.draw := by
  unfold State.dataLevel
  rcases h with h | ⟨-, m, h, hg⟩
  · rw [h]
  · simp [h, hg]

/-- A shift loop whose answers are given as `ls` reads exactly them. -/
theorem shiftLoop_drawing (p : Pins) (ls rest : List Level) (hn : ls.length ≤ 64) :
    ∀ (acc : Bitfield) (s : State), Drawing p s.env → s.answers = ls ++ rest →
    ∃ (r : Bitfield) (o : PinMap Level) (e : Environment),
      shiftLoop p ls.length acc s = (r, { s with
        trace := s.trace ++ ls.flatMap (bitEvents p s.pw), outs := o, env := e, answers := rest }) ∧
      ∀ j, r.getLsbD j =
        (acc.getLsbD j || (decide (j < ls.length) && lvl (ls.getD (ls.length - 1 - j) .low))) := by
  induction ls with
  | nil =>
    intro acc s _ ha
    exact ⟨acc, s.outs, s.env, by simp [shiftLoop, ← (show s.answers = rest by simpa using ha)], by simp⟩
  | cons l ls ih =>
    intro acc s hd ha
    have hdraw : s.draw = (l, { s with answers := ls ++ rest }) := by simp [State.draw, ha]
    have hl : s.pinRead p = (l, { s with
        trace := s.trace ++ [.pinRead p.data l], answers := ls ++ rest }) := by
      have he := s.pinRead_env p
      unfold State.pinRead at he ⊢
      rw [hd.dataLevel, hdraw] at he ⊢
      refine Prod.ext rfl ?_
      simp only [State.emit_env] at he
      simp [State.emit, noteDir, noteOut, he]
    have hd' : Drawing p (clockPulse p (s.pinRead p).2).env :=
      Drawing.clockPulse (by rw [s.pinRead_env p]; exact hd)
    obtain ⟨r, o, e, hst, hacc⟩ := ih (by simp only [List.length_cons] at hn; omega)
      (insertBit acc ls.length (lvl l)) _ hd' (by rw [clockPulse_spec, hl])
    refine ⟨r, o, e, ?_, fun j => ?_⟩
    · have h1 : (s.pinRead p).1 = l := by rw [hl]
      rw [List.length_cons, shiftLoop, h1, hst, clockPulse_spec, hl]
      simp [bitEvents]
    · simp only [List.length_cons] at hn
      rw [hacc, getLsbD_insertBit acc (show ls.length < 64 by omega), List.length_cons]
      by_cases h1 : j < ls.length
      · have h2 : ls.length - j = (ls.length - 1 - j) + 1 := by omega
        have h3 : ls.length - 1 - j < ls.length := by omega
        simp [h1, h2, h3, show j < ls.length + 1 by omega, show j ≠ ls.length by omega]
      · by_cases h2 : j = ls.length
        · subst h2
          simp
        · simp [h1, h2, show ¬ j < ls.length + 1 by omega]

theorem sampleNat_nil : sampleNat [] = 0 := rfl

/-- The first level read has the greatest weight. -/
theorem sampleNat_cons (l : Level) (ls : List Level) :
    sampleNat (l :: ls) = (lvl l).toNat * 2 ^ ls.length + sampleNat ls := by
  simp only [sampleNat, List.length_cons, Finset.sum_range_succ']
  rw [Nat.add_comm]
  congr 1
  refine Finset.sum_congr rfl fun i hi => ?_
  have h : i < ls.length := Finset.mem_range.1 hi
  rw [show ls.length + 1 - 1 - (i + 1) = ls.length - 1 - i by omega]
  rfl

theorem sampleNat_lt (ls : List Level) : sampleNat ls < 2 ^ ls.length := by
  induction ls with
  | nil => simp [sampleNat_nil]
  | cons l ls ih =>
    rw [sampleNat_cons, List.length_cons, Nat.pow_succ]
    cases l <;> simp [lvl] <;> omega

/-- Bit `j` of the sample is the level read `len - 1 - j`-th. -/
theorem testBit_sampleNat (ls : List Level) : ∀ j,
    (sampleNat ls).testBit j = (decide (j < ls.length) && lvl (ls.getD (ls.length - 1 - j) .low)) := by
  induction ls with
  | nil => simp [sampleNat_nil]
  | cons l ls ih =>
    intro j
    have hlt := sampleNat_lt ls
    rw [sampleNat_cons, Nat.mul_comm, Nat.testBit_two_pow_mul_add _ hlt]
    by_cases h1 : j < ls.length
    · have h2 : ls.length - j = (ls.length - 1 - j) + 1 := by omega
      have h3 : ls.length - 1 - j < ls.length := by omega
      simp [h1, ih, h2, h3, show j < ls.length + 1 by omega]
    · by_cases h2 : j = ls.length
      · subst h2
        cases l <;> simp [lvl]
      · have h3 : j - ls.length ≠ 0 := by omega
        have h4 : ¬ j < ls.length + 1 := by omega
        obtain ⟨d, hd⟩ : ∃ d, j - ls.length = d + 1 := ⟨j - ls.length - 1, by omega⟩
        cases l <;> simp [h1, h4, hd, lvl, Nat.testBit_succ]

/-- The value a sampling operation leaves in CUR. -/
theorem toNat_ofNat_sampleNat {ls : List Level} (h : ls.length ≤ 64) :
    (BitVec.ofNat 64 (sampleNat ls)).toNat = sampleNat ls := by
  rw [BitVec.toNat_ofNat]
  exact Nat.mod_eq_of_lt (Nat.lt_of_lt_of_le (sampleNat_lt ls) (Nat.pow_le_pow_right (by omega) h))

/-- Steps 1 to 5, whole: the levels read, the state left, the levels of the other pins, and the
environment. -/
theorem sample_spec (p : Pins) (s : State) :
    ∃ (ls : List Level) (o : PinMap Level) (e : Environment) (a : List Level) (d : Nat),
      ls.length = s.chips.dataWidth ∧
      sample p s = { s with
        last := s.curVal
        cur := BitVec.ofNat 64 (sampleNat ls)
        trace := s.trace ++ sampleEvents p s.pw ls
        outs := o
        env := e
        answers := a
        draws := d } ∧
      (∀ k, k ≠ p.load.toNat → k ≠ p.clken.toNat → k ≠ p.clk.toNat → mapGet k o = mapGet k s.outs) ∧
      s.env.KeepsInputs e := by
  have hw := s.chips.dataWidth_bounds
  obtain ⟨ls, r, o, e, a, d, hlen, hst, hacc⟩ :=
    shiftLoop_spec p s.chips.dataWidth hw.2 0 (loadPhase p (s.setLast s.curVal))
  have hval : r = BitVec.ofNat 64 (sampleNat ls) := by
    apply BitVec.eq_of_getLsbD_eq
    intro j hj
    rw [hacc j, BitVec.getLsbD_ofNat, testBit_sampleNat, hlen]
    simp [hj]
  have hcur : s.chips.toStorage (BitVec.ofNat 64 (sampleNat ls)) = BitVec.ofNat 64 (sampleNat ls) := by
    apply ChipCount.toStorage_of_lt
    rw [toNat_ofNat_sampleNat (by omega), ← hlen]
    exact sampleNat_lt ls
  have hlast : s.chips.toStorage s.curVal = s.curVal := by
    apply BitVec.eq_of_getLsbD_eq
    intro j _
    simp only [State.curVal, ChipCount.getLsbD_toStorage]
    cases decide (j < s.chips.storageWidth) <;> simp
  have hsample : sample p s = { s with
      last := s.curVal
      cur := BitVec.ofNat 64 (sampleNat ls)
      trace := s.trace ++ sampleEvents p s.pw ls
      outs := o
      env := e
      answers := a
      draws := d } := by
    unfold sample
    rw [hst, hval, loadPhase_spec]
    simp [State.setCur, State.setLast, sampleEvents, hcur, hlast]
  refine ⟨ls, o, e, a, d, hlen, hsample, fun k h3 h4 h5 => ?_, ?_⟩
  · have h6 : (shiftLoop p s.chips.dataWidth 0 (loadPhase p (s.setLast s.curVal))).2.outs = o := by
      rw [hst]
    rw [← h6, shiftLoop_outs_other p h5]
    simp [loadPhase_outs, mapGet_mapPut, h3, h4]
  · have h6 : (shiftLoop p s.chips.dataWidth 0 (loadPhase p (s.setLast s.curVal))).2.env = e := by
      rw [hst]
    rw [← h6]
    exact (loadPhase_keepsInputs p (s.setLast s.curVal)).trans (shiftLoop_keepsInputs p _ _ _)

/-- A sample fits its register. -/
theorem toStorage_sampleNat {c : ChipCount} {ls : List Level} (h : ls.length = c.dataWidth) :
    c.toStorage (BitVec.ofNat 64 (sampleNat ls)) = BitVec.ofNat 64 (sampleNat ls) := by
  have hw := c.dataWidth_bounds
  apply ChipCount.toStorage_of_lt
  rw [toNat_ofNat_sampleNat (by omega), ← h]
  exact sampleNat_lt ls

end Sys2Proof.Machine
end

