-- ==== Sys2Proof/Laws/Steps.lean ====
section
/-! SUPPORT. What exec and step can do when they give a next state, said once. -/

namespace Sys2Proof.Machine

/-- Pins of two states that agree on BEGUN and the four pin registers. -/
theorem State.pinSet_congr {s t : State} (h : t.begun = s.begun ∧ t.pinLoad = s.pinLoad ∧
    t.pinClken = s.pinClken ∧ t.pinData = s.pinData ∧ t.pinClk = s.pinClk) : t.pinSet = s.pinSet := by
  obtain ⟨h1, h2, h3, h4, h5⟩ := h
  unfold State.pinSet
  rw [h1, h2, h3, h4, h5]

theorem runSample_of_pins {op : SampleOp} {s : State} {p : Pins} (h : s.pinSet = some p) :
    runSample op s = .next ((sample p s).respond (sampleResult op (sample p s))) := by
  simp [runSample, h]

theorem runSample_cases {op : SampleOp} {s t : State} (h : runSample op s = .next t) :
    ∃ p, s.pinSet = some p ∧ t = (sample p s).respond (sampleResult op (sample p s)) := by
  unfold runSample raise at h
  split at h
  · cases h
  · cases h
    exact ⟨_, by assumption, rfl⟩

theorem runSample_fault {op : SampleOp} {s : State} {f : Fault} (h : runSample op s = .fault f) :
    s.pinSet = none ∧ f = .notBegun op := by
  unfold runSample raise at h
  split at h
  · cases h
    exact ⟨by assumption, rfl⟩
  · cases h

theorem answerBit_of_lt {q : BitQuery} {id : Byte} {s : State} {f : Nat → Bool}
    (h : id.toNat < s.chips.dataWidth) :
    answerBit q id s f = .next (s.respond (boolWord (f id.toNat))) := by
  simp [answerBit, withIndex, show ¬ s.chips.dataWidth ≤ id.toNat by omega]

theorem answerBit_of_le {q : BitQuery} {id : Byte} {s : State} {f : Nat → Bool}
    (h : s.chips.dataWidth ≤ id.toNat) : answerBit q id s f = .fault (.indexRange q id) := by
  simp [answerBit, withIndex, h, raise]

theorem answerBit_cases {q : BitQuery} {id : Byte} {s t : State} {f : Nat → Bool}
    (h : answerBit q id s f = .next t) :
    id.toNat < s.chips.dataWidth ∧ t = s.respond (boolWord (f id.toNat)) := by
  by_cases hid : id.toNat < s.chips.dataWidth
  · rw [answerBit_of_lt hid] at h
    cases h
    exact ⟨hid, rfl⟩
  · rw [answerBit_of_le (by omega)] at h
    cases h

/-- An operation that completes only answers, or writes PW, or samples, or configures. -/
theorem exec_cases {i : Instr} {s t : State} (h : exec i s = .next t) :
    (∃ r, t = s.respond r ∧ i ≠ .read ∧ i ≠ .update ∧ ∀ ld ce da ck, i ≠ .begin ld ce da ck) ∨
    (∃ v, i = .setpw v ∧ t = (s.setPw v).respond noResult) ∨
    (∃ op p, sampleOp i = some op ∧ s.pinSet = some p ∧
      t = (sample p s).respond (sampleResult op (sample p s))) ∨
    (∃ p : Pins, i = .begin p.load p.clken p.data p.clk ∧ s.begun = false ∧
      s.env.accepts p = true ∧
      t = (((s.setPins p).emitAll p (beginEvents p)).setBegun).respond noResult) := by
  cases i with
  | begin ld ce da ck =>
    simp only [exec, execBegin, raise] at h
    split at h
    · cases h
    · split at h
      · rename_i hb ha
        cases h
        exact .inr (.inr (.inr ⟨⟨ld, ce, da, ck⟩, rfl, by simpa using hb, ha, rfl⟩))
      · cases h
  | read =>
    obtain ⟨p, hp, ht⟩ := runSample_cases h
    exact .inr (.inr (.inl ⟨.read, p, rfl, hp, ht⟩))
  | update =>
    obtain ⟨p, hp, ht⟩ := runSample_cases h
    exact .inr (.inr (.inl ⟨.update, p, rfl, hp, ht⟩))
  | setpw v =>
    cases h
    exact .inr (.inl ⟨v, rfl, rfl⟩)
  | getpw => cases h; exact .inl ⟨_, rfl, by simp⟩
  | getdw => cases h; exact .inl ⟨_, rfl, by simp⟩
  | chg => cases h; exact .inl ⟨_, rfl, by simp⟩
  | getlast => cases h; exact .inl ⟨_, rfl, by simp⟩
  | getcur => cases h; exact .inl ⟨_, rfl, by simp⟩
  | chgi id => exact .inl ⟨_, (answerBit_cases h).2, by simp⟩
  | state id => exact .inl ⟨_, (answerBit_cases h).2, by simp⟩
  | last id => exact .inl ⟨_, (answerBit_cases h).2, by simp⟩
  | pressed id => exact .inl ⟨_, (answerBit_cases h).2, by simp⟩
  | released id => exact .inl ⟨_, (answerBit_cases h).2, by simp⟩

theorem startSample_cases {op : SampleOp} {s t : State} (h : startSample op s = .next t) :
    ∃ p, s.pinSet = some p ∧ t = (s.setLast s.curVal).setEngine (.busy ⟨op, .clkenHigh, 0, 0⟩) := by
  unfold startSample raise at h
  split at h
  · cases h
  · cases h
    exact ⟨_, by assumption, rfl⟩

theorem advanceSample_cases {f : InFlight} {s t : State} (h : advanceSample f s = .next t) :
    ∃ p, s.pinSet = some p ∧ t = runPosition p f s := by
  unfold advanceSample raise at h
  split at h
  · cases h
  · cases h
    exact ⟨_, by assumption, rfl⟩

/-- A step that gives a next state: the host's queue moves on; an idle engine waits, executes or begins
an operation, or the inputs are set; a busy one runs one position; or the reset comes. -/
theorem step_cases {s t : State} (h : step s = .next t) :
    (s.engine = .idle ∧ ∃ l, t = s.setInbox l) ∨
    (s.engine = .idle ∧ ∃ l i, exec i (s.setInbox l) = .next t) ∨
    (s.engine = .idle ∧ ∃ l op p, s.pinSet = some p ∧
      t = ((s.setInbox l).setLast s.curVal).setEngine (.busy ⟨op, .clkenHigh, 0, 0⟩)) ∨
    (s.engine = .idle ∧ ∃ l v, t = (s.setInbox l).setInputs v) ∨
    (∃ l, t = (s.setInbox l).applyReset) ∨
    (∃ l f p, s.engine = .busy f ∧ s.pinSet = some p ∧ t = runPosition p f (s.setInbox l)) := by
  unfold step advance at h
  split at h
  · rename_i he
    unfold stepIdle at h
    split at h
    · cases h
      exact .inl ⟨he, s.inbox, rfl⟩
    · unfold issue raise at h
      split at h
      · exact .inr (.inl ⟨he, _, _, h⟩)
      · cases h
    · unfold post raise at h
      split at h
      · split at h
        · obtain ⟨p, hp, rfl⟩ := startSample_cases h
          exact .inr (.inr (.inl ⟨he, _, _, p, hp, rfl⟩))
        · exact .inr (.inl ⟨he, _, _, h⟩)
      · cases h
    · cases h
      exact .inr (.inr (.inr (.inr (.inl ⟨_, rfl⟩))))
    · cases h
      exact .inr (.inr (.inr (.inl ⟨he, _, _, rfl⟩)))
    · cases h
      exact .inl ⟨he, _, rfl⟩
  · rename_i f he
    unfold stepBusy raise at h
    split at h
    · obtain ⟨p, hp, rfl⟩ := advanceSample_cases h
      exact .inr (.inr (.inr (.inr (.inr ⟨s.inbox, f, p, he, hp, rfl⟩))))
    · cases h
    · cases h
    · cases h
      exact .inr (.inr (.inr (.inr (.inl ⟨_, rfl⟩))))
    · obtain ⟨p, hp, rfl⟩ := advanceSample_cases h
      exact .inr (.inr (.inr (.inr (.inr ⟨s.inbox, f, p, he, hp, rfl⟩))))
    · obtain ⟨p, hp, rfl⟩ := advanceSample_cases h
      exact .inr (.inr (.inr (.inr (.inr ⟨_, f, p, he, hp, rfl⟩))))

end Sys2Proof.Machine
end

