-- ==== Sys2Proof/Tests/Slice0.lean ====
section
/-! SUPPORT. Tests on values the spec gives (95_test_vectors), and a witness for each statement with
hypotheses. -/

namespace Sys2Proof.Machine.Tests

/-! ### Small states -/

/-- Instances of one, two, three and eight chips. -/
def one : ChipCount := ⟨1, by decide, by decide⟩
def two : ChipCount := ⟨2, by decide, by decide⟩
def three : ChipCount := ⟨3, by decide, by decide⟩
def eight : ChipCount := ⟨8, by decide, by decide⟩

/-- The pins of the spec's listings. -/
def pins : Pins := ⟨8, 9, 11, 12⟩

/-- After `begin(8, 9, 11, 12)`, with the levels it drives (40_config_ops R110). -/
def begun (c : ChipCount) : State :=
  { State.resetOf c with
    begun := true
    pinLoad := some 8
    pinClken := some 9
    pinData := some 11
    pinClk := some 12
    dirs := [(8, .output), (9, .output), (11, .input), (12, .output)]
    outs := [(8, .high), (12, .low)] }

/-- The same with two samples held. -/
def holding (c : ChipCount) (last cur : Bitfield) : State := { begun c with last := last, cur := cur }

/-- A serial stream, first-out first: 1 for HIGH (95_test_vectors, conventions). -/
def stream (bits : List Nat) : List Level := bits.map fun b => levelOf (b != 0)

/-- After BEGIN, with the oracle's next answers. -/
def fed (c : ChipCount) (bits : List Nat) : State := { begun c with answers := stream bits }

/-- A SimChain with parallel inputs `p`. -/
def chain (p : Bitfield) (serIn : Bool) (pwMin : Nat) : SimChain :=
  { SimChain.fresh p with serIn := serIn, pwMin := pwMin }

/-- After BEGIN, before a SimChain. -/
def wired (c : ChipCount) (p : Bitfield) (serIn : Bool) (pwMin : Nat) : State :=
  { begun c with env := .simChain (chain p serIn pwMin) }

/-- A READ in flight at the given position. -/
def flying (pos : SeqPos) (i : Nat) : State :=
  { begun one with engine := .busy ⟨.read, pos, 0, i⟩ }

def nextOf (o : Host.Outcome State Fault Refusal) : Option State :=
  match o with
  | .next t => some t
  | .fault _ => none
  | .refused _ => none

def faultOf (o : Host.Outcome State Fault Refusal) : Option Fault :=
  match o with
  | .next _ => none
  | .fault f => some f
  | .refused _ => none

/-- The responses an operation leaves. -/
def answersOf (o : Host.Outcome State Fault Refusal) : Option (List ResponseWord) :=
  (nextOf o).map fun t => t.responses

/-- CUR and LAST after an operation. -/
def samplesOf (o : Host.Outcome State Fault Refusal) : Option (Bitfield × Bitfield) :=
  (nextOf o).map fun t => (t.cur, t.last)

/-! ### Decoding (95_test_vectors 2.1; 30_encoding R87, R89, R92) -/

theorem test_decode_begin : decode 0x0108090B0C#40 = .op (.begin 8 9 11 12) := by decide
theorem test_decode_begin_all_ones : decode 0x01FFFFFFFF#40 = .op (.begin 255 255 255 255) := by decide
theorem test_decode_getpw : decode 0x0200000000#40 = .op .getpw := by decide
theorem test_decode_setpw : decode 0x03000000FF#40 = .op (.setpw 255) := by decide
theorem test_decode_getdw : decode 0x0400000000#40 = .op .getdw := by decide
theorem test_decode_read : decode 0x0500000000#40 = .op .read := by decide
theorem test_decode_update : decode 0x0600000000#40 = .op .update := by decide
theorem test_decode_chg : decode 0x0700000000#40 = .op .chg := by decide
theorem test_decode_chgi : decode 0x0800000010#40 = .op (.chgi 16) := by decide
theorem test_decode_state : decode 0x0900000018#40 = .op (.state 24) := by decide
theorem test_decode_last : decode 0x0A00000003#40 = .op (.last 3) := by decide
theorem test_decode_pressed : decode 0x0B000000FF#40 = .op (.pressed 255) := by decide
theorem test_decode_released : decode 0x0C00000007#40 = .op (.released 7) := by decide
theorem test_decode_getlast : decode 0x0D00000000#40 = .op .getlast := by decide
theorem test_decode_getcur : decode 0x0E00000000#40 = .op .getcur := by decide

theorem test_decode_must_be_zero :
    decode 0x0500000001#40 = .invalid (.mustBeZero 5) ∧
    decode 0x0B00000103#40 = .invalid (.mustBeZero 11) ∧
    decode 0x0300010000#40 = .invalid (.mustBeZero 3) := by decide

theorem test_decode_unassigned :
    decode 0x0000000000#40 = .invalid (.unassignedOpcode 0) ∧
    decode 0x0F00000000#40 = .invalid (.unassignedOpcode 15) ∧
    decode 0xFF00000000#40 = .invalid (.unassignedOpcode 255) := by decide

theorem test_encode_released : encode (.released 7) = 0x0C00000007#40 := by decide

theorem test_decode_table_word : decodeTableWord 40 0x0B00000003 = some (.pressed 3) ∧
    decodeTableWord 40 0x0500000001 = none := by decide

theorem test_decode_bytes : decodeBytes [0x03, 0, 0, 0, 10, 0x05] = some (.op (.setpw 10), [0x05]) ∧
    decodeBytes [0x03, 0, 0, 0] = none := by decide

/-! ### The textual syntax (30_encoding R92) -/

theorem test_parse_call : parseLine "begin(8, 0x09, 11, 12)".toList = some (.begin 8 9 11 12, none) := by
  decide

theorem test_parse_mnemonic : parseLine "PRESSED 3 -> 1 -- edge".toList = some (.pressed 3, some 1) := by
  decide

theorem test_parse_program : parseProgram "hasChanged()\n-- a comment\nhasChanged(7)".toList =
    some [(.chg, none), (.chgi 7, none)] := by decide

theorem test_parse_refuses : parseLine "read(1)".toList = none ∧ parseLine "nop()".toList = none := by
  decide

/-! ### Well-formedness: one ill-formed operation for each check (20_memory R51) -/

theorem test_illformed_chgi : Instr.wellFormed one (.chgi 8) = false ∧
    Instr.wellFormed one (.chgi 7) = true := by decide
theorem test_illformed_state : Instr.wellFormed three (.state 24) = false ∧
    Instr.wellFormed three (.state 23) = true := by decide
theorem test_illformed_last : Instr.wellFormed one (.last 255) = false := by decide
theorem test_illformed_pressed : Instr.wellFormed eight (.pressed 64) = false ∧
    Instr.wellFormed eight (.pressed 63) = true := by decide
theorem test_illformed_released : Instr.wellFormed two (.released 16) = false := by decide

/-! ### Parameters (95_test_vectors S2) -/

theorem test_widths : (one.dataWidth, one.storageWidth) = (8, 8) ∧
    (two.dataWidth, two.storageWidth) = (16, 16) ∧ (three.dataWidth, three.storageWidth) = (24, 32) ∧
    (eight.dataWidth, eight.storageWidth) = (64, 64) := by decide

/-! ### Configuration (95_test_vectors F1 to F10, P5) -/

theorem test_begin_registers_and_trace :
    (nextOf (exec (.begin 8 9 11 12) (State.resetOf one))).map (fun t => (t.pinSet, t.trace)) =
      some (some pins, [.pinMode 8 .output, .pinMode 9 .output, .pinMode 11 .input,
        .pinMode 12 .output, .pinWrite 12 .low, .pinWrite 8 .high]) := by decide

theorem test_begin_equal_pins :
    answersOf (exec (.begin 4 4 4 4) (State.resetOf one)) = some [0] ∧
    exec (.begin 4 4 4 4) { State.resetOf one with env := .simChain (chain 0 false 0) } =
      .refused .simChainPins := ⟨by decide, rfl⟩

theorem test_begin_twice : faultOf (exec (.begin 8 9 11 12) (begun one)) = some .rebegin := by decide

theorem test_getpw_after_reset : answersOf (exec .getpw (State.resetOf one)) = some [5] := by decide

theorem test_setpw_after_begin :
    (nextOf (exec (.setpw 7) (begun one))).map (fun t => (t.pw, t.responses)) = some (7, [0]) := by decide

theorem test_getdw : answersOf (exec .getdw (State.resetOf three)) = some [24] ∧
    answersOf (exec .getdw (State.resetOf eight)) = some [64] := by decide

/-! ### Sampling (95_test_vectors V2, V10, V13; T2, T5, T6; E3) -/

theorem test_read_first_bits_are_high :
    samplesOf (exec .read { fed one [1,1,0,0,0,0,0,0] with cur := 0xFF }) = some (0xC0, 0xFF) := by
  decide +kernel

theorem test_read_first_register_is_high :
    answersOf (exec .read (fed two [1,0,1,0,1,0,1,1, 1,1,0,0,1,1,0,1])) = some [0xABCD] := by
  decide +kernel

theorem test_update_answers_changed :
    answersOf (exec .update (fed one [1,0,0,0,0,0,0,1])) = some [1] ∧
    answersOf (exec .update { fed one [1,0,0,0,0,0,0,1] with cur := 0x81 }) = some [0] := by
  decide +kernel

theorem test_update_trace_is_reads :
    (nextOf (exec .update (fed one [0,1,0,1,0,0,1,1]))).map (fun t => (t.trace, t.cur)) =
    (nextOf (exec .read (fed one [0,1,0,1,0,0,1,1]))).map (fun t => (t.trace, 0x53)) := by
  decide +kernel

theorem test_read_trace_and_levels :
    (nextOf (exec .read (fed one [1,0,0,0,0,0,0,1]))).map (fun t =>
      (t.trace.length, t.trace.take 7, t.outs)) =
    some (37, [.pinWrite 9 .high, .pinWrite 8 .low, .sleep 5, .pinWrite 8 .high, .pinWrite 9 .low,
        .pinRead 11 .high, .pinWrite 12 .high], [(8, .high), (9, .low), (12, .low)]) := by
  decide +kernel

theorem test_read_before_begin :
    faultOf (exec .read (State.resetOf one)) = some (.notBegun .read) ∧
    faultOf (exec .update (State.resetOf one)) = some (.notBegun .update) := by decide

theorem test_simchain_serial_input :
    (nextOf (exec .read (wired one 0x0F true 0))).map (fun t => (t.cur, t.env)) =
      some (0x0F, .simChain { chain 0x0F true 0 with shift := 0xFF }) := by decide +kernel

theorem test_simchain_three_chips :
    answersOf (exec .read (wired three 0x123456 true 0)) = some [0x123456] := by decide +kernel

/-- Below PW_MIN the answers count, not the inputs (60_exceptions R210). -/
theorem test_simchain_garbled :
    answersOf (exec .read { wired one 0x0F false 6 with answers := stream [1,1,0,0,0,0,0,0] }) =
      some [0xC0] := by decide +kernel

/-! ### Queries (95_test_vectors Q1 to Q16) -/

theorem test_chg : answersOf (exec .chg (holding one 0x81 0x01)) = some [1] ∧
    answersOf (exec .chg (holding one 0x81 0x81)) = some [0] := by decide
theorem test_chgi : answersOf (exec (.chgi 7) (holding one 0x81 0x01)) = some [1] ∧
    answersOf (exec (.chgi 0) (holding one 0x81 0x01)) = some [0] := by decide
theorem test_state : answersOf (exec (.state 2) (holding one 0x00 0x04)) = some [1] ∧
    answersOf (exec (.state 2) (holding one 0x04 0x00)) = some [0] := by decide
theorem test_last : answersOf (exec (.last 2) (holding one 0x00 0x04)) = some [0] ∧
    answersOf (exec (.last 2) (holding one 0x04 0x00)) = some [1] := by decide
theorem test_pressed : answersOf (exec (.pressed 2) (holding one 0x00 0x04)) = some [1] ∧
    answersOf (exec (.pressed 2) (holding one 0x04 0x00)) = some [0] ∧
    answersOf (exec (.pressed 2) (holding one 0x04 0x04)) = some [0] := by decide
theorem test_released : answersOf (exec (.released 2) (holding one 0x04 0x00)) = some [1] ∧
    answersOf (exec (.released 2) (holding one 0x00 0x04)) = some [0] ∧
    answersOf (exec (.released 2) (holding one 0x00 0x00)) = some [0] := by decide
theorem test_getlast : answersOf (exec .getlast (holding one 0x81 0x01)) = some [0x81] := by decide
theorem test_getcur : answersOf (exec .getcur (holding one 0x81 0x01)) = some [0x01] := by decide
theorem test_edge_sets : (holding one 0x0F 0xF0).pressedSet = 0xF0 ∧
    (holding one 0x0F 0xF0).releasedSet = 0x0F := by decide
theorem test_highest_index : answersOf (exec (.state 7) (holding one 0 0x80)) = some [1] ∧
    answersOf (exec (.pressed 63) (holding eight 0 0x8000000000000000)) = some [1] := by decide
theorem test_index_range_in_storage :
    faultOf (exec (.state 24) (holding three 0 0x123456)) = some (.indexRange .state 24) := by decide

/-! ### The command port (60_exceptions R194, R195, R198; 70_reset_and_hazards R220) -/

theorem test_step_runs_placed_word :
    (nextOf (step (State.reset.withFetchWord 40 0x030000000A))).map (fun t => (t.pw, t.inbox)) =
      some (10, []) := by decide

theorem test_illegal_word : faultOf (step (State.reset.withFetchWord 40 0x0500000001)) =
    some (.illegalCmd 0x0500000001) := by decide

theorem test_reentrant_before_decode :
    faultOf (step { flying .readBit 3 with inbox := [.command 0] }) = some .reentrant := by decide

theorem test_post_runs_event_by_event :
    (nextOf (runSteps 2 { begun one with inbox := [.post 0x0500000000] })).map
      (fun t => (t.engine, t.trace, t.responses)) =
    some (.busy ⟨.read, .loadLow, 0, 0⟩, [.pinWrite 9 .high], []) := by decide

theorem test_reset_abandons_read :
    (nextOf (step { flying .clockHigh 3 with inbox := [.reset], cur := 3, pw := 9 })).map
      (fun t => (t.engine, t.cur, t.pw, t.begun)) = some (.idle, 0, 5, false) := by decide

theorem test_fault_codes : ([.indexRange .state 8, .notBegun .read, .rebegin, .reentrant,
    .illegalCmd 0] : List Fault).map Fault.code = [1, 2, 3, 4, 5] := by decide

/-! ### Witnesses: concrete values that meet a statement's hypotheses together -/

/-- BeginConfiguresThePins: already begun; and, before BEGIN, the oracle with all pins different (so that
every clause on different pins is met), with all pins equal, and SimChain with all pins different. -/
theorem test_witness_begin :
    (begun one).begun = true ∧
    ((State.resetOf one).begun = false ∧ (State.resetOf one).env.accepts ⟨8, 9, 11, 12⟩ = true ∧
      (11 : PinId) ≠ 12 ∧ (9 : PinId) ≠ 11 ∧ (8 : PinId) ≠ 11 ∧ (8 : PinId) ≠ 12) ∧
    (State.resetOf one).env.accepts ⟨4, 4, 4, 4⟩ = true ∧
    (Environment.simChain (chain 0 false 0)).accepts ⟨0, 1, 254, 255⟩ = true :=
  ⟨by decide, by decide, by decide, rfl⟩

/-- DerivedWidths: a storage width at least the data width, at the edges of the tiers. -/
theorem test_witness_derived_widths : one.dataWidth ≤ 8 ∧ two.dataWidth ≤ 16 ∧ three.dataWidth ≤ 32 ∧
    eight.dataWidth ≤ 64 := by decide

theorem test_witness_simchain_refuses : (State.resetOf one).begun = false ∧
    ¬ [(8 : PinId), 9, 8, 12].Nodup := by decide

/-- ReadSamplesTheChain, UpdateComparesWithThePreviousSample, TwoReadsKeepTwoGenerations and
UpdateIsReadThenCompare: after BEGIN. -/
theorem test_witness_begun : (begun one).pinSet = some pins ∧ (begun eight).pinSet = some pins := by
  decide

theorem test_witness_read_places_bits : (fed one [1,1,0,0,0,0,0,0,1]).pinSet = some pins ∧
    (fed one [1,1,0,0,0,0,0,0,1]).env = .oracle ∧
    (fed one [1,1,0,0,0,0,0,0,1]).answers = stream [1,1,0,0,0,0,0,0] ++ stream [1] ∧
    (stream [1,1,0,0,0,0,0,0]).length = one.dataWidth := by decide

theorem test_witness_sampling_before_begin : (State.resetOf one).begun = false := by decide

/-- SampleEventCounts, PinLevelsAfterSample, SampleTakesAtLeast: a READ and an UPDATE that complete, with
different driven pins. -/
theorem test_witness_sample_completes : (begun one).pinSet = some pins ∧ pins.load ≠ pins.clken ∧
    pins.load ≠ pins.clk ∧ pins.clken ≠ pins.clk ∧ (∃ t, exec .read (begun one) = .next t) ∧
    (∃ t, exec .update (begun one) = .next t) :=
  ⟨rfl, by decide, by decide, by decide, ⟨_, rfl⟩, ⟨_, rfl⟩⟩

theorem test_witness_events_do_not_depend :
    (fed one [1,1,1,1,1,1,1,1]).pinSet = some pins ∧ (holding one 3 5).pinSet = some pins ∧
    (holding one 3 5).pw = (fed one [1,1,1,1,1,1,1,1]).pw ∧
    (holding one 3 5).chips = (fed one [1,1,1,1,1,1,1,1]).chips ∧
    (∃ t, exec .read (fed one [1,1,1,1,1,1,1,1]) = .next t) ∧
    (∃ t, exec .read (holding one 3 5) = .next t) :=
  ⟨rfl, rfl, rfl, rfl, ⟨_, rfl⟩, ⟨_, rfl⟩⟩

theorem test_witness_levels_ready : (begun one).LevelsReady ∧
    (∃ t, exec .read (begun one) = .next t) ∧ (State.resetOf one).LevelsReady ∧
    (∃ t, exec (.begin 8 9 11 12) (State.resetOf one) = .next t) := by
  refine ⟨fun p hp _ _ _ => ?_, ⟨_, rfl⟩, fun p hp _ _ _ => ?_, ⟨_, rfl⟩⟩
  · cases hp
    decide
  · cases hp

/-- FirstSampleIsComparedWithZero: begun with CUR 0, and the first and last index. -/
theorem test_witness_first_sample : (begun one).pinSet = some pins ∧ (begun one).cur = 0 ∧
    (0 : Byte).toNat < (begun one).chips.dataWidth ∧ (7 : Byte).toNat < (begun one).chips.dataWidth := by
  decide

/-- The single-bit statements and IndexOutOfRangeFaults: where in range and out of range meet, for one
chip and for three, whose storage is wider than the data. -/
theorem test_witness_index_ranges :
    (0 : Byte).toNat < one.dataWidth ∧ (7 : Byte).toNat < one.dataWidth ∧
    one.dataWidth ≤ (8 : Byte).toNat ∧ (23 : Byte).toNat < three.dataWidth ∧
    three.dataWidth ≤ (24 : Byte).toNat ∧ (63 : Byte).toNat < eight.dataWidth ∧
    eight.dataWidth ≤ (64 : Byte).toNat ∧ eight.dataWidth ≤ (255 : Byte).toNat := by decide

/-- QueriesArePureAndSeeOnlyTheSamples and QueriesAreIdempotent: before and after BEGIN. -/
theorem test_witness_queries_pure : isQuery (.pressed 7) = true ∧
    (holding one 0 0x80).chips = (State.resetOf one).chips ∧
    { State.resetOf one with cur := 0x80 }.cur = (holding one 0 0x80).cur ∧
    { State.resetOf one with cur := 0x80 }.last = (holding one 0 0x80).last ∧
    ∃ t, exec (.pressed 7) (holding one 0 0x80) = .next t :=
  ⟨by decide, by decide, by decide, by decide, ⟨_, rfl⟩⟩

theorem mapWf_begun : mapWf (begun one).dirs ∧ mapWf (begun one).outs := by decide

theorem inv_holding (last cur : Bitfield) (hl : last.toNat < 2 ^ 8) (hc : cur.toNat < 2 ^ 8) :
    (holding one last cur).Inv where
  cur_lt := hc
  last_lt := hl
  pins_begun := ⟨rfl, rfl, rfl, rfl⟩
  dirs_wf := mapWf_begun.1
  outs_wf := mapWf_begun.2
  engine_ok := fun f hf => by cases hf

/-- EdgeLaws: one state for each line of the truth table at index 7 (95_test_vectors Q1 to Q4), and an
index from `W` up. -/
theorem test_witness_edge_laws :
    (holding one 0 0).Inv ∧ (holding one 0 0x80).Inv ∧ (holding one 0x80 0).Inv ∧
    (holding one 0x80 0x80).Inv ∧ (7 : Byte).toNat < (holding one 0 0).chips.dataWidth ∧
    (holding one 0 0).chips.dataWidth ≤ 8 :=
  ⟨inv_holding _ _ (by decide) (by decide), inv_holding _ _ (by decide) (by decide),
    inv_holding _ _ (by decide) (by decide), inv_holding _ _ (by decide) (by decide),
    by decide, by decide⟩

/-- DecodeAndEncodeAreInverse: a legal word. -/
theorem test_witness_legal_word : decode 0x0C00000007#40 = .op (.released 7) := by decide

/-- LegalWordsAreTheTableRows: a word that matches no row. -/
theorem test_witness_illegal_word : ¬ ∃ r ∈ legalPatterns, 0x0B00000103#40 &&& r.2 = r.1 := by decide

theorem test_witness_step_runs_command :
    { begun one with inbox := [.command 0x0200000000, .reset] }.engine = .idle ∧
    { begun one with inbox := [.command 0x0200000000, .reset] }.inbox =
      .command 0x0200000000 :: [.reset] ∧
    decode 0x0200000000 = .op .getpw := by decide

theorem test_witness_invalid_word :
    { begun one with inbox := [.command 0] }.engine = .idle ∧
    { begun one with inbox := [.command 0] }.inbox = .command 0 :: [] ∧
    { begun one with inbox := [.post 0x0F00000000] }.inbox = .post 0x0F00000000 :: [] ∧
    decode 0 = .invalid (.unassignedOpcode 0) ∧
    decode 0x0F00000000 = .invalid (.unassignedOpcode 15) := by decide

/-- OverlapFaults: a command and a post, legal and not, during a READ. -/
theorem test_witness_overlap :
    (∃ f, { flying .clkenHigh 0 with inbox := [.command 0] }.engine = .busy f) ∧
    { flying .clkenHigh 0 with inbox := [.command 0] }.inbox = .command 0 :: [] ∧
    { flying .store 8 with inbox := [.post 0x0500000000] }.inbox = .post 0x0500000000 :: [] :=
  ⟨⟨_, rfl⟩, rfl, rfl⟩

theorem test_witness_reset : { flying .clockHigh 3 with inbox := [.reset] }.inbox = .reset :: [] ∧
    { begun one with inbox := [.reset, .wait] }.inbox = .reset :: [.wait] := by decide

theorem inv_flying (pos : SeqPos) (i : Nat) (h : InFlight.Ok one ⟨.read, pos, 0, i⟩) :
    (flying pos i).Inv where
  cur_lt := (by decide : (0 : Bitfield).toNat < 2 ^ one.dataWidth)
  last_lt := (by decide : (0 : Bitfield).toNat < 2 ^ one.dataWidth)
  pins_begun := ⟨rfl, rfl, rfl, rfl⟩
  dirs_wf := mapWf_begun.1
  outs_wf := mapWf_begun.2
  engine_ok := fun f hf => by
    cases hf
    exact ⟨rfl, h⟩

/-- EveryStepKeepsTheInvariant and NoStepChangesTheInstance: an idle engine that executes, and an
operation in flight at its first position, in its last iteration and at step 5. -/
theorem test_witness_inv_steps :
    (holding one 0x81 0x01).Inv ∧ (∃ t, step ((holding one 0x81 0x01).setInbox []) = .next t) ∧
    (flying .clkenHigh 0).Inv ∧ (∃ t, step (flying .clkenHigh 0) = .next t) ∧
    (flying .clockLow 7).Inv ∧ (∃ t, step (flying .clockLow 7) = .next t) ∧
    (flying .store 8).Inv ∧ ∃ t, step (flying .store 8) = .next t :=
  ⟨inv_holding _ _ (by decide) (by decide), ⟨_, rfl⟩, inv_flying _ _ ⟨by decide, by decide⟩, ⟨_, rfl⟩,
    inv_flying _ _ ⟨by decide, by decide⟩, ⟨_, rfl⟩, inv_flying _ _ ⟨by decide, rfl⟩, ⟨_, rfl⟩⟩

/-- OnlySamplingWritesTheGenerations, PinsAreImmutableAfterBegin, OnlySetpwWritesThePulseWidth,
OneResponseAndEventsOnlyAdded: operations that complete after BEGIN, one of them SETPW. -/
theorem test_witness_operations_complete : (begun one).begun = true ∧
    (∃ t, exec (.setpw 0) (begun one) = .next t) ∧ (∃ t, exec .chg (begun one) = .next t) ∧
    (Instr.setpw 0 ≠ .read ∧ Instr.setpw 0 ≠ .update ∧
      ∀ ld ce da ck, Instr.setpw 0 ≠ .begin ld ce da ck) :=
  ⟨rfl, ⟨_, rfl⟩, ⟨_, rfl⟩, by decide, by decide, fun _ _ _ _ h => by cases h⟩

/-- EachOperationHasAtMostOneCheck: each of the four faults of an operation. -/
theorem test_witness_faults :
    exec (.released 8) (begun one) = .fault (.indexRange .released 8) ∧
    exec .read (State.resetOf one) = .fault (.notBegun .read) ∧
    exec .update (State.resetOf one) = .fault (.notBegun .update) ∧
    exec (.begin 0 0 0 0) (begun one) = .fault .rebegin := ⟨rfl, rfl, rfl, rfl⟩

theorem inv_reset_one : (State.resetOf one).Inv where
  cur_lt := by decide
  last_lt := by decide
  pins_begun := by decide
  dirs_wf := by decide
  outs_wf := by decide
  engine_ok := fun f hf => by cases hf

/-- WellFormedOperationsComplete: a query at the last index, BEGIN before BEGIN, READ after it. -/
theorem test_witness_wellformed_complete :
    ((holding one 0 1).Inv ∧ Instr.wellFormed one (.last 7) = true) ∧
    ((State.resetOf one).Inv ∧ Instr.wellFormed one (.begin 8 9 11 12) = true ∧
      (State.resetOf one).begun = false ∧ (State.resetOf one).env.accepts ⟨8, 9, 11, 12⟩ = true) ∧
    (Instr.wellFormed one .read = true ∧ (holding one 0 1).begun = true) :=
  ⟨⟨inv_holding _ _ (by decide) (by decide), by decide⟩,
    ⟨inv_reset_one, by decide, by decide, by decide⟩, by decide⟩

theorem test_witness_simchain_read :
    (wired three 0x123456 true 5).pinSet = some pins ∧
    (wired three 0x123456 true 5).env = .simChain (chain 0x123456 true 5) ∧
    [pins.load, pins.clken, pins.data, pins.clk].Nodup ∧
    (chain 0x123456 true 5).pwMin ≤ (wired three 0x123456 true 5).pw.toNat ∧
    mapGet pins.clk.toNat (wired three 0x123456 true 5).outs = some .low ∧
    (chain 0x123456 true 5).inputs.toNat < 2 ^ (wired three 0x123456 true 5).chips.dataWidth :=
  ⟨rfl, rfl, by decide, by decide, by decide, by decide⟩

theorem test_witness_garbled_read :
    { wired one 0x0F false 6 with answers := stream [1,1,0,0,0,0,0,0] }.pinSet = some pins ∧
    { wired one 0x0F false 6 with answers := stream [1,1,0,0,0,0,0,0] }.env =
      .simChain (chain 0x0F false 6) ∧
    [pins.load, pins.clken, pins.data, pins.clk].Nodup ∧
    { wired one 0x0F false 6 with answers := stream [1,1,0,0,0,0,0,0] }.pw.toNat <
      (chain 0x0F false 6).pwMin ∧
    stream [1,1,0,0,0,0,0,0] = stream [1,1,0,0,0,0,0,0] ++ [] ∧
    (stream [1,1,0,0,0,0,0,0]).length = one.dataWidth :=
  ⟨rfl, rfl, by decide, by decide, by decide, by decide⟩

theorem test_witness_serial_input :
    (wired one 0x0F false 0).pinSet = some pins ∧
    (wired one 0x0F false 0).env = .simChain (chain 0x0F false 0) ∧
    [pins.load, pins.clken, pins.data, pins.clk].Nodup ∧
    (∃ t, exec .read (wired one 0x0F false 0) = .next t) ∧
    ∃ t, exec .read { wired one 0x0F false 0 with
      env := .simChain { chain 0x0F false 0 with serIn := true, shift := 0xFF } } = .next t :=
  ⟨rfl, rfl, by decide, ⟨_, rfl⟩, ⟨_, rfl⟩⟩

theorem test_witness_split_sample :
    { begun one with inbox := [.post (encode .update)] }.engine = .idle ∧
    { begun one with inbox := [.post (encode .update)] }.inbox = [.post (encode .update)] ∧
    { begun one with inbox := [.post (encode .update)] }.pinSet.isSome = true ∧
    sampleOp .read = some .read ∧ sampleOp .update = some .update := by decide

/-- StepBeginsAPostedCommand: a query; a READ before BEGIN; an UPDATE after it. -/
theorem test_witness_post :
    { begun one with inbox := [.post 0x0700000000, .wait] }.engine = .idle ∧
    { begun one with inbox := [.post 0x0700000000, .wait] }.inbox = .post 0x0700000000 :: [.wait] ∧
    decode 0x0700000000 = .op .chg ∧ sampleOp .chg = none ∧
    decode 0x0500000000 = .op .read ∧ sampleOp .read = some .read ∧
    (State.resetOf one).begun = false ∧
    decode 0x0600000000 = .op .update ∧ sampleOp .update = some .update ∧
    (begun one).pinSet.isSome = true := by decide

/-- InFlightSampleIsNotVisible: before step 5 and at it, with nothing for the host to do, a wait, and
inputs to set. -/
theorem test_witness_in_flight :
    (flying .readBit 7).engine = .busy ⟨.read, .readBit, 0, 7⟩ ∧
    (flying .readBit 7).pinSet.isSome = true ∧ (flying .readBit 7).inbox = [] ∧
    (flying .store 8).engine = .busy ⟨.read, .store, 0, 8⟩ ∧
    (flying .store 8).pinSet.isSome = true ∧
    { flying .store 8 with inbox := [.wait, .reset] }.inbox = .wait :: [.reset] ∧
    { flying .clkenHigh 0 with inbox := [.inputs 3] }.inbox = .inputs 3 :: [] := by decide

/-- Inputs wait until the READ has ended: in flight they stay at the head (60_exceptions R206). -/
theorem test_inputs_wait_for_read :
    (nextOf (step { wired one 0x0F false 0 with
      engine := .busy ⟨.read, .loadLow, 0, 0⟩, inbox := [.inputs 0xF0] })).map (fun t => (t.env, t.inbox)) =
    some (.simChain { chain 0x0F false 0 with shift := 0x0F }, [.inputs 0xF0]) := by decide

end Sys2Proof.Machine.Tests
end

section
/-! PROOFS. The widths derived from `chipCount` (00_scope R7). -/

namespace Sys2Proof

theorem ChipCount.dataWidth_eq (c : ChipCount) : c.dataWidth = c.val * 8 := rfl

/-- The four storage types of 00_scope R7. -/
theorem ChipCount.storageWidth_mem (c : ChipCount) : c.storageWidth ∈ [8, 16, 32, 64] := by
  unfold ChipCount.storageWidth
  split_ifs <;> simp

/-- A tier is passed over only when `dataWidth` exceeds it, so whichever tier `n` is, the branch that
answers more than `n` contradicts `c.dataWidth ≤ n`. -/
theorem ChipCount.storageWidth_le_of_dataWidth_le {c : ChipCount} {n : Nat}
    (hn : n ∈ [8, 16, 32, 64]) (hc : c.dataWidth ≤ n) : c.storageWidth ≤ n := by
  have tiers : n = 8 ∨ n = 16 ∨ n = 32 ∨ n = 64 := by simpa using hn
  unfold ChipCount.storageWidth
  split_ifs <;> omega

/-- Settles O2: the storage width is one of the four tiers, holds the data width, and is at most every
tier that holds it. -/
theorem derivedWidths : Obligations.DerivedWidths := fun c =>
  ⟨c.dataWidth_eq, c.storageWidth_mem, c.storageWidth_bounds.1,
    fun _ hn hc => ChipCount.storageWidth_le_of_dataWidth_le hn hc⟩

end Sys2Proof
end

section
/-! PROOFS. The legal words: the opcode table by operand formats (30_encoding R82 to R89). -/

namespace Sys2Proof

/-- The operand formats of 30_encoding R82; V and I allow the same words. -/
inductive OperandFormat where
  /-- P: four operand bytes. -/
  | fourBytes
  /-- V and I: the operand byte `b0`. -/
  | lowByte
  /-- Z: no operand byte. -/
  | empty

/-- The bits of a word that a format fixes: the opcode and the must-be-zero operand bits. -/
def OperandFormat.mask : OperandFormat → CommandWord
  | .fourBytes => packWord 0xFF 0 0 0 0
  | .lowByte => packWord 0xFF 0xFF 0xFF 0xFF 0
  | .empty => packWord 0xFF 0xFF 0xFF 0xFF 0xFF

/-- Every must-be-zero operand bit of the format is 0 in the word. -/
def OperandFormat.Fits (w : CommandWord) : OperandFormat → Prop
  | .fourBytes => True
  | .lowByte => cmdHi0 w = true
  | .empty => cmdHi0 w = true ∧ cmdB0 w = 0

/-- The opcode and the format of each operation (30_encoding R87). -/
def opcodeFormats : List (Byte × OperandFormat) :=
  [(0x01, .fourBytes), (0x02, .empty), (0x03, .lowByte), (0x04, .empty), (0x05, .empty),
   (0x06, .empty), (0x07, .empty), (0x08, .lowByte), (0x09, .lowByte), (0x0A, .lowByte),
   (0x0B, .lowByte), (0x0C, .lowByte), (0x0D, .empty), (0x0E, .empty)]

/-- The match and mask columns are the opcodes and formats. -/
theorem legalPatterns_eq_map : Machine.legalPatterns =
    opcodeFormats.map fun e => (packWord e.1 0 0 0 0, e.2.mask) := by decide

theorem cmdHi0_iff (w : CommandWord) :
    cmdHi0 w = true ↔ cmdB3 w = 0 ∧ cmdB2 w = 0 ∧ cmdB1 w = 0 := by
  simp [cmdHi0, and_assoc]

theorem packWord_inj {op b3 b2 b1 b0 op' b3' b2' b1' b0' : Byte} :
    packWord op b3 b2 b1 b0 = packWord op' b3' b2' b1' b0' ↔
      op = op' ∧ b3 = b3' ∧ b2 = b2' ∧ b1 = b1' ∧ b0 = b0' := by
  constructor
  · intro h
    exact ⟨by simpa using congrArg cmdOpcode h, by simpa using congrArg cmdB3 h,
      by simpa using congrArg cmdB2 h, by simpa using congrArg cmdB1 h,
      by simpa using congrArg cmdB0 h⟩
  · rintro ⟨rfl, rfl, rfl, rfl, rfl⟩
    rfl

theorem and_255 (b : Byte) : b &&& 255#8 = b := BitVec.and_allOnes

/-- Matching a row, field by field: the opcode is the row's and the operand fits its format. -/
theorem and_mask_eq_iff (w : CommandWord) (op : Byte) (f : OperandFormat) :
    w &&& f.mask = packWord op 0 0 0 0 ↔ cmdOpcode w = op ∧ f.Fits w := by
  conv_lhs => rw [← packWord_fields w]
  cases f <;> simp [OperandFormat.mask, OperandFormat.Fits, packWord_and, packWord_inj, and_255,
    cmdHi0_iff, and_assoc]

/-- The rows of the table, read as opcodes and formats. -/
theorem exists_row_iff (w : CommandWord) : (∃ r ∈ Machine.legalPatterns, w &&& r.2 = r.1) ↔
    ∃ e ∈ opcodeFormats, cmdOpcode w = e.1 ∧ e.2.Fits w := by
  simp only [legalPatterns_eq_map, List.mem_map, exists_exists_and_eq_and, and_mask_eq_iff]

/-- Format Z is decoded exactly when the word fits it. -/
theorem decodeZ_isOp_iff (w : CommandWord) (i : Instr) :
    (∃ j, decodeZ w i = .op j) ↔ OperandFormat.empty.Fits w := by
  unfold decodeZ OperandFormat.Fits
  split <;> rename_i h <;> simpa using h

/-- Formats V and I are decoded exactly when the word fits them. -/
theorem decodeB0_isOp_iff (w : CommandWord) (i : Byte → Instr) :
    (∃ j, decodeB0 w i = .op j) ↔ OperandFormat.lowByte.Fits w := by
  unfold decodeB0 OperandFormat.Fits
  split <;> rename_i h <;> simpa using h

theorem fits_fourBytes (w : CommandWord) : OperandFormat.fourBytes.Fits w := trivial

/-- Each branch of `decode` fixes the opcode, so one entry of `opcodeFormats` is left, and the branch's
operand test is that entry's format; the last branch leaves none. -/
theorem decode_isOp_iff (w : CommandWord) :
    (∃ i, decode w = .op i) ↔ ∃ e ∈ opcodeFormats, cmdOpcode w = e.1 ∧ e.2.Fits w := by
  unfold decode
  split
  case h_15 => simp_all [opcodeFormats, BitVec.toNat_eq]
  all_goals simp [opcodeFormats, BitVec.toNat_eq, decodeZ_isOp_iff, decodeB0_isOp_iff,
    fits_fourBytes, *]

/-- A legal word is one that matches a row of the opcode table (30_encoding R89). -/
theorem decode_isOp_iff_row (w : CommandWord) :
    (∃ i, decode w = .op i) ↔ ∃ r ∈ Machine.legalPatterns, w &&& r.2 = r.1 :=
  (decode_isOp_iff w).trans (exists_row_iff w).symm

namespace Machine

theorem issue_of_invalid {w : CommandWord} {why : Invalid} (h : decode w = .invalid why) (s : State) :
    issue w s = .fault (.illegalCmd w) := by
  simp [issue, h, raise]

theorem post_of_invalid {w : CommandWord} {why : Invalid} (h : decode w = .invalid why) (s : State) :
    post w s = .fault (.illegalCmd w) := by
  simp [post, h, raise]

end Machine

/-- Settles O35: the decoder and the table's rows ask the same of every word, so a word that matches no
row decodes to invalid, which the port refuses whatever the state. -/
theorem legalWordsAreTheTableRows : Obligations.LegalWordsAreTheTableRows := by
  intro w
  refine ⟨decode_isOp_iff_row w, fun hrow s => ?_⟩
  cases hw : decode w with
  | op i => exact absurd ((decode_isOp_iff_row w).1 ⟨i, hw⟩) hrow
  | invalid why => exact ⟨Machine.issue_of_invalid hw s, Machine.post_of_invalid hw s⟩

end Sys2Proof
end

section
/-! PROOFS. The configuration operations: BEGIN, GETPW, SETPW, GETDW (40_config_ops R110 to R113). -/

namespace Sys2Proof

/-- The data width fits a response word, so GETDW answers it whole. -/
theorem ChipCount.toNat_ofNat_dataWidth (c : ChipCount) :
    (BitVec.ofNat 64 c.dataWidth).toNat = c.val * 8 := by
  have hbounds := c.dataWidth_bounds
  rw [BitVec.toNat_ofNat, Nat.mod_eq_of_lt (by omega), c.dataWidth_eq]

/-- Settles O7: the response is `PW` zero-extended, which keeps its number. -/
theorem getpwAnswersThePulseWidth : Obligations.GetpwAnswersThePulseWidth := fun s =>
  ⟨by decide, s.pw.setWidth 64, BitVec.toNat_setWidth_of_le (by decide), rfl⟩

/-- Settles O8: the arm of SETPW tests nothing, so it completes for every value in every state. -/
theorem setpwWritesThePulseWidth : Obligations.SetpwWritesThePulseWidth := fun _ v =>
  ⟨by simp [encode, toNat_packWord], rfl⟩

/-- Settles O9: the response is `W` as a word, and `W` is at most 64. -/
theorem getdwAnswersTheDataWidth : Obligations.GetdwAnswersTheDataWidth := fun s =>
  ⟨by decide, BitVec.ofNat 64 s.chips.dataWidth, s.chips.toNat_ofNat_dataWidth, rfl⟩

namespace Machine

/-- The directions after BEGIN's four `PinMode` events (40_config_ops R110). -/
def beginDirs (p : Pins) (m : PinMap Direction) : PinMap Direction :=
  mapPut p.clk.toNat .output (mapPut p.data.toNat .input
    (mapPut p.clken.toNat .output (mapPut p.load.toNat .output m)))

/-- The levels after BEGIN's two `PinWrite` events (40_config_ops R110). -/
def beginOuts (p : Pins) (m : PinMap Level) : PinMap Level :=
  mapPut p.load.toNat .high (mapPut p.clk.toNat .low m)

/-- Of coinciding pins the later event decides: clk over data over clken over load. -/
theorem mapGet_beginDirs (p : Pins) (m : PinMap Direction) (k : Nat) :
    mapGet k (beginDirs p m) =
      if k = p.clk.toNat then some .output
      else if k = p.data.toNat then some .input
      else if k = p.clken.toNat then some .output
      else if k = p.load.toNat then some .output
      else mapGet k m := by
  simp only [beginDirs, mapGet_mapPut]

/-- Of coinciding pins the later event decides: load over clk. -/
theorem mapGet_beginOuts (p : Pins) (m : PinMap Level) (k : Nat) :
    mapGet k (beginOuts p m) =
      if k = p.load.toNat then some .high
      else if k = p.clk.toNat then some .low
      else mapGet k m := by
  simp only [beginOuts, mapGet_mapPut]

/-- SimChain does not react to a direction (60_exceptions R207 to R210). -/
@[simp] theorem Environment.react_pinMode (env : Environment) (c : ChipCount) (p : Pins)
    (outs : PinMap Level) (pin : PinId) (dir : Direction) :
    env.react c p outs (.pinMode pin dir) = env := by
  cases env <;> rfl

/-- Only a LOW on the load line is a load pulse (60_exceptions R207). -/
theorem Environment.react_pinWrite_low {env : Environment} {p : Pins} {pin : PinId}
    (h : env = .oracle ∨ pin ≠ p.load) (c : ChipCount) (outs : PinMap Level) :
    env.react c p outs (.pinWrite pin .low) = env := by
  cases env with
  | oracle => rfl
  | simChain m => simp_all [Environment.react, SimChain.react]

/-- Only a HIGH on the clock line shifts (60_exceptions R209). -/
theorem Environment.react_pinWrite_high {env : Environment} {p : Pins} {pin : PinId}
    (h : env = .oracle ∨ pin ≠ p.clk) (c : ChipCount) (outs : PinMap Level) :
    env.react c p outs (.pinWrite pin .high) = env := by
  cases env with
  | oracle => rfl
  | simChain m => simp_all [Environment.react, SimChain.react]

/-- Pins that SimChain takes have the load line and the clock line apart (60_exceptions R206). -/
theorem Environment.load_ne_clk_of_accepts {env : Environment} {p : Pins} (h : env.accepts p = true) :
    env = .oracle ∨ p.load ≠ p.clk := by
  cases env with
  | oracle => exact .inl rfl
  | simChain m =>
    refine .inr fun heq => ?_
    simp [Environment.accepts, heq] at h

/-- BEGIN drives the clock LOW and the load line HIGH, which neither loads nor shifts an accepting
SimChain: its six events change the trace and the pin shadow alone. -/
theorem State.emitAll_beginEvents {s : State} {p : Pins} (h : s.env.accepts p = true) :
    s.emitAll p (beginEvents p) = { s with
      trace := s.trace ++ beginEvents p
      dirs := beginDirs p s.dirs
      outs := beginOuts p s.outs } := by
  have hlow := Environment.react_pinWrite_low
    ((Environment.load_ne_clk_of_accepts h).imp_right Ne.symm)
  have hhigh := Environment.react_pinWrite_high (Environment.load_ne_clk_of_accepts h)
  simp [State.emitAll, State.emit, beginEvents, beginDirs, beginOuts, noteDir, noteOut, hlow, hhigh]

theorem exec_begin_of_begun {s : State} (h : s.begun = true) (ld ce da ck : PinId) :
    exec (.begin ld ce da ck) s = .fault .rebegin := by
  simp [exec, execBegin, h, raise]

/-- A BEGIN that passes both tests, whole. -/
theorem exec_begin_of_accepts {s : State} {p : Pins} (hb : s.begun = false)
    (ha : s.env.accepts p = true) :
    exec (.begin p.load p.clken p.data p.clk) s = .next { s with
      pinLoad := some p.load
      pinClken := some p.clken
      pinData := some p.data
      pinClk := some p.clk
      begun := true
      trace := s.trace ++ beginEvents p
      responses := s.responses ++ [0]
      dirs := beginDirs p s.dirs
      outs := beginOuts p s.outs } := by
  have hevents : (s.setPins p).emitAll p (beginEvents p) = _ := State.emitAll_beginEvents ha
  have hexec : exec (.begin p.load p.clken p.data p.clk) s =
      .next ((((s.setPins p).emitAll p (beginEvents p)).setBegun).respond noResult) := by
    simp [exec, execBegin, hb, ha]
  rw [hexec, hevents]
  rfl

end Machine

open Machine in
/-- Settles O5: the next state is `exec_begin_of_accepts`, and each clause about a pin reads the shadow
there, where the pins assumed different leave one event that decides. -/
theorem beginConfiguresThePins : Obligations.BeginConfiguresThePins := by
  intro s ld ce da ck
  refine ⟨toNat_packWord _ _ _ _ _, fun hb => exec_begin_of_begun hb ld ce da ck, fun hb ha =>
    ⟨_, _, exec_begin_of_accepts hb ha, ?_⟩⟩
  simp only [mapGet_beginDirs, mapGet_beginOuts, ne_eq, ← BitVec.toNat_inj]
  exact ⟨fun k hld hce hda hck => by simp [hld, hce, hda, hck], fun k hck hld => by simp [hck, hld],
    by simp, fun hdata => by simp [hdata], fun hclken => by simp [hclken],
    fun hload => by simp [hload], by simp, fun hload => by simp [Ne.symm hload]⟩

end Sys2Proof
end

section
/-! PROOFS. The sampling operations: READ and UPDATE (41_sampling R130 to R132, R136). -/

namespace Sys2Proof

/-- What a register stores is stored unchanged. -/
@[simp] theorem ChipCount.toStorage_toStorage (c : ChipCount) (v : Bitfield) :
    c.toStorage (c.toStorage v) = c.toStorage v := by
  apply BitVec.eq_of_toNat_eq
  simp only [ChipCount.toNat_toStorage, Nat.mod_mod]

namespace Machine

theorem State.pinSet_of_not_begun {s : State} (h : s.begun = false) : s.pinSet = none := by
  simp [State.pinSet, h]

theorem runSample_of_not_begun {s : State} (h : s.begun = false) (op : SampleOp) :
    runSample op s = .fault (.notBegun op) := by
  simp [runSample, State.pinSet_of_not_begun h, raise]

/-- `sample_spec` in the terms of the statements. -/
theorem exists_sampled_sample (p : Pins) (s : State) :
    ∃ ls : List Level, ls.length = s.chips.dataWidth ∧ Sampled p ls s (sample p s) := by
  obtain ⟨ls, o, e, a, d, hlen, hsample, houts, henv⟩ := sample_spec p s
  exact ⟨ls, hlen, s.responses, o, e, a, d, hsample, houts, henv⟩

/-- `Sampled` leaves the responses open, so it does not see an answer. -/
theorem Sampled.respond {p : Pins} {ls : List Level} {s t : State} (h : Sampled p ls s t)
    (r : ResponseWord) : Sampled p ls s (t.respond r) := by
  obtain ⟨rs, o, e, a, d, rfl, hframe⟩ := h
  exact ⟨rs ++ [r], o, e, a, d, rfl, hframe⟩

/-- The five steps themselves answer nothing. -/
@[simp] theorem sample_responses (p : Pins) (s : State) : (sample p s).responses = s.responses := by
  obtain ⟨ls, o, e, a, d, -, hsample, -⟩ := sample_spec p s
  rw [hsample]

/-- Step 1: the register LAST holds all of the CUR before (41_sampling R130). -/
@[simp] theorem sample_lastVal (p : Pins) (s : State) : (sample p s).lastVal = s.curVal := by
  obtain ⟨ls, o, e, a, d, -, hsample, -⟩ := sample_spec p s
  rw [hsample]
  exact s.chips.toStorage_toStorage s.cur

/-- Step 5: the sample has no bit that the register CUR would not store (41_sampling R130). -/
@[simp] theorem sample_curVal (p : Pins) (s : State) : (sample p s).curVal = (sample p s).cur :=
  ChipCount.toStorage_toStorage _ _

/-- READ after BEGIN: the five steps, then the sample as the response. -/
theorem exec_read_of_pins {s : State} {p : Pins} (h : s.pinSet = some p) :
    exec .read s = .next ((sample p s).respond (sample p s).cur) := by
  have hrun : exec .read s = .next ((sample p s).respond (sample p s).curVal) := runSample_of_pins h
  rw [hrun, sample_curVal]

/-- UPDATE after BEGIN: the same five steps, then the comparison with the CUR before. -/
theorem exec_update_of_pins {s : State} {p : Pins} (h : s.pinSet = some p) :
    exec .update s =
      .next ((sample p s).respond (if (sample p s).cur = s.curVal then 0 else 1)) := by
  have hrun : exec .update s = .next ((sample p s).respond
      (boolWord ((sample p s).curVal != (sample p s).lastVal))) := runSample_of_pins h
  rw [hrun, sample_curVal, sample_lastVal]
  by_cases hsame : (sample p s).cur = s.curVal <;> simp [boolWord, hsame]

end Machine

open Machine in
/-- Settles O10: the next state is `sample` with its CUR as the response, and `sample` is what
`sample_spec` says of it. -/
theorem readSamplesTheChain : Obligations.ReadSamplesTheChain := by
  refine fun s => ⟨by decide, fun hb => runSample_of_not_begun hb .read, fun p hp => ?_⟩
  obtain ⟨ls, hlen, hsampled⟩ := exists_sampled_sample p s
  exact ⟨ls, _, hlen, exec_read_of_pins hp, hsampled.respond _, by simp⟩

open Machine in
/-- Settles O12: READ and UPDATE answer differently from one and the same `sample`. -/
theorem updateComparesWithThePreviousSample : Obligations.UpdateComparesWithThePreviousSample := by
  refine fun s => ⟨by decide, fun hb => runSample_of_not_begun hb .update, fun p hp => ?_⟩
  obtain ⟨ls, hlen, hsampled⟩ := exists_sampled_sample p s
  refine ⟨ls, _, _, hlen, exec_read_of_pins hp, exec_update_of_pins hp, hsampled.respond _, ?_⟩
  rw [← sample_responses p s]
  rfl

end Sys2Proof
end

section
/-! PROOFS. The eight queries (42_queries R160 to R167, R170). -/

namespace Sys2Proof

/-- The words of formats V and I as numbers: the opcode and the operand byte (30_encoding R84, R85). -/
theorem toNat_packWord_lowByte (op b : Byte) :
    (packWord op 0 0 0 b).toNat = op.toNat * 2 ^ 32 + b.toNat := by
  simp [toNat_packWord]

/-- Two values agree as the register stores them exactly when no bit below `S` differs. -/
theorem ChipCount.toStorage_eq_iff (c : ChipCount) (u v : Bitfield) :
    c.toStorage u = c.toStorage v ↔ ∀ j, j < c.storageWidth → u.getLsbD j = v.getLsbD j := by
  constructor
  · intro h j hj
    simpa [ChipCount.getLsbD_toStorage, hj] using congrArg (BitVec.getLsbD · j) h
  · intro h
    apply BitVec.eq_of_getLsbD_eq
    intro j _
    by_cases hj : j < c.storageWidth
    · simp [ChipCount.getLsbD_toStorage, hj, h j hj]
    · simp [ChipCount.getLsbD_toStorage, hj]

/-- Storing keeps every bit of the sample: `W` is at most `S`. -/
theorem ChipCount.getLsbD_toStorage_of_lt {c : ChipCount} {j : Nat} (h : j < c.dataWidth)
    (v : Bitfield) : (c.toStorage v).getLsbD j = v.getLsbD j := by
  have hstored : j < c.storageWidth := Nat.lt_of_lt_of_le h c.storageWidth_bounds.1
  simp [ChipCount.getLsbD_toStorage, hstored]

namespace Machine

theorem boolWord_eq_ite {b : Bool} {p : Prop} [Decidable p] (h : b = true ↔ p) :
    boolWord b = if p then 1 else 0 := by
  simp only [boolWord, h]

/-- `LAST != CUR` over all `S` bits (42_queries R160). -/
theorem State.changed_eq_false_iff (s : State) : s.changed = false ↔
    ∀ j, j < s.chips.storageWidth → s.last.getLsbD j = s.cur.getLsbD j := by
  rw [State.changed, bne_eq_false_iff_eq]
  exact s.chips.toStorage_eq_iff s.last s.cur

section
variable {s : State} {n : Nat} (h : n < s.chips.dataWidth)
include h

/-- 42_queries R162. -/
theorem State.curBit_of_lt : s.curBit n = s.cur.getLsbD n :=
  ChipCount.getLsbD_toStorage_of_lt h s.cur

/-- 42_queries R163. -/
theorem State.lastBit_of_lt : s.lastBit n = s.last.getLsbD n :=
  ChipCount.getLsbD_toStorage_of_lt h s.last

/-- 42_queries R161. -/
theorem State.bitChanged_iff : s.bitChanged n = true ↔ s.cur.getLsbD n ≠ s.last.getLsbD n := by
  simp [State.bitChanged, State.curBit_of_lt h, State.lastBit_of_lt h]

/-- A rising edge (42_queries R164). -/
theorem State.bitPressed_iff :
    s.bitPressed n = true ↔ s.cur.getLsbD n = true ∧ s.last.getLsbD n = false := by
  simp [State.bitPressed, State.curBit_of_lt h, State.lastBit_of_lt h]

/-- A falling edge (42_queries R165). -/
theorem State.bitReleased_iff :
    s.bitReleased n = true ↔ s.cur.getLsbD n = false ∧ s.last.getLsbD n = true := by
  simp [State.bitReleased, State.curBit_of_lt h, State.lastBit_of_lt h]

end

/-- What the five single-bit queries share: the index test of 42_queries R170, and inside the sample the
truth of `p`, where `p` is what the query's Boolean `f` says of a bit of the sample. -/
theorem answerBit_spec (q : BitQuery) {id : Byte} {s : State} {f : Nat → Bool} {p : Prop} [Decidable p]
    (hf : id.toNat < s.chips.dataWidth → (f id.toNat = true ↔ p)) :
    (id.toNat < s.chips.dataWidth → answerBit q id s f =
      .next { s with responses := s.responses ++ [if p then 1 else 0] }) ∧
    (s.chips.dataWidth ≤ id.toNat → answerBit q id s f = .fault (.indexRange q id)) := by
  refine ⟨fun hid => ?_, answerBit_of_le⟩
  rw [answerBit_of_lt hid, boolWord_eq_ite (hf hid)]
  rfl

end Machine

open Machine

/-- Settles O22: CHG compares the stored values, which differ exactly when one of the `S` bits does. -/
theorem chgComparesTheGenerations : Obligations.ChgComparesTheGenerations := by
  refine fun s => ⟨by decide, boolWord s.changed, ?_, rfl⟩
  have hsame := s.changed_eq_false_iff
  cases hchanged : s.changed with
  | false => exact .inr ⟨rfl, hsame.1 hchanged⟩
  | true =>
    refine .inl ⟨rfl, ?_⟩
    by_contra! hall
    simp [hsame.2 hall] at hchanged

/-- Settles O23: `answerBit_spec` with `p` the inequality of the two bits. -/
theorem chgiComparesOneBit : Obligations.ChgiComparesOneBit := fun _ id =>
  ⟨toNat_packWord_lowByte 0x08 id, answerBit_spec .chgi State.bitChanged_iff⟩

/-- Settles O24: `answerBit_spec` with `p` the bit of CUR, which storing keeps below `W`. -/
theorem stateReadsACurBit : Obligations.StateReadsACurBit := fun _ id =>
  ⟨toNat_packWord_lowByte 0x09 id, answerBit_spec .state fun hid => by rw [State.curBit_of_lt hid]⟩

/-- Settles O25: `answerBit_spec` with `p` the bit of LAST, which storing keeps below `W`. -/
theorem lastReadsALastBit : Obligations.LastReadsALastBit := fun _ id =>
  ⟨toNat_packWord_lowByte 0x0A id, answerBit_spec .last fun hid => by rw [State.lastBit_of_lt hid]⟩

/-- Settles O26: `answerBit_spec` with `p` the rising edge. -/
theorem pressedIsARisingEdge : Obligations.PressedIsARisingEdge := fun _ id =>
  ⟨toNat_packWord_lowByte 0x0B id, answerBit_spec .pressed State.bitPressed_iff⟩

/-- Settles O27: `answerBit_spec` with `p` the falling edge. -/
theorem releasedIsAFallingEdge : Obligations.ReleasedIsAFallingEdge := fun _ id =>
  ⟨toNat_packWord_lowByte 0x0C id, answerBit_spec .released State.bitReleased_iff⟩

/-- Settles O28: the response is LAST as stored, its number modulo `2^S`. -/
theorem getlastAnswersLast : Obligations.GetlastAnswersLast := fun s =>
  ⟨by decide, s.lastVal, s.chips.toNat_toStorage s.last, rfl⟩

/-- Settles O29: the response is CUR as stored, its number modulo `2^S`. -/
theorem getcurAnswersCur : Obligations.GetcurAnswersCur := fun s =>
  ⟨by decide, s.curVal, s.chips.toNat_toStorage s.cur, rfl⟩

end Sys2Proof
end

section
/-! PROOFS. The faults: what each answer of exec and step that is a fault comes from
(60_exceptions R190 to R198). -/

namespace Sys2Proof.Machine

/-- The operation that asks the single-bit query `q` of bit `id` (42_queries R161 to R165). -/
def BitQuery.instr (q : BitQuery) (id : Byte) : Instr :=
  match q with
  | .chgi => .chgi id
  | .state => .state id
  | .last => .last id
  | .pressed => .pressed id
  | .released => .released id

/-- The Boolean that the query `q` answers of a bit inside the sample (42_queries R161 to R165). -/
def BitQuery.bit (q : BitQuery) (s : State) : Nat → Bool :=
  match q with
  | .chgi => s.bitChanged
  | .state => s.curBit
  | .last => s.lastBit
  | .pressed => s.bitPressed
  | .released => s.bitReleased

theorem exec_bitQuery (q : BitQuery) (id : Byte) (s : State) :
    exec (q.instr id) s = answerBit q id s (q.bit s) := by
  cases q <;> rfl

theorem exec_bitQuery_of_le {q : BitQuery} {id : Byte} {s : State} (h : s.chips.dataWidth ≤ id.toNat) :
    exec (q.instr id) s = .fault (.indexRange q id) := by
  rw [exec_bitQuery, answerBit_of_le h]

theorem exec_bitQuery_fault {q : BitQuery} {id : Byte} {s : State} {f : Fault}
    (h : exec (q.instr id) s = .fault f) :
    s.chips.dataWidth ≤ id.toNat ∧ f = .indexRange q id := by
  rw [exec_bitQuery] at h
  by_cases hid : id.toNat < s.chips.dataWidth
  · rw [answerBit_of_lt hid] at h
    cases h
  · have hle := Nat.le_of_not_lt hid
    rw [answerBit_of_le hle] at h
    cases h
    exact ⟨hle, rfl⟩

theorem execBegin_fault {ld ce da ck : PinId} {s : State} {f : Fault}
    (h : execBegin ld ce da ck s = .fault f) : s.begun = true ∧ f = .rebegin := by
  unfold execBegin raise at h
  split at h
  · rename_i hb
    cases h
    exact ⟨hb, rfl⟩
  · split at h <;> cases h

/-- An operation that faults is a BEGIN after BEGIN, a sampling operation without its pins, or a
single-bit query from `W` up. -/
theorem exec_fault_cases {i : Instr} {s : State} {f : Fault} (h : exec i s = .fault f) :
    ((∃ ld ce da ck, i = .begin ld ce da ck) ∧ s.begun = true ∧ f = .rebegin) ∨
    (∃ op, sampleOp i = some op ∧ s.pinSet = none ∧ f = .notBegun op) ∨
    (∃ q id, i = BitQuery.instr q id ∧ s.chips.dataWidth ≤ id.toNat ∧ f = .indexRange q id) := by
  cases i with
  | begin ld ce da ck => exact .inl ⟨⟨ld, ce, da, ck, rfl⟩, execBegin_fault h⟩
  | read => exact .inr (.inl ⟨.read, rfl, runSample_fault h⟩)
  | update => exact .inr (.inl ⟨.update, rfl, runSample_fault h⟩)
  | chgi id => exact .inr (.inr ⟨.chgi, id, rfl, exec_bitQuery_fault h⟩)
  | state id => exact .inr (.inr ⟨.state, id, rfl, exec_bitQuery_fault h⟩)
  | last id => exact .inr (.inr ⟨.last, id, rfl, exec_bitQuery_fault h⟩)
  | pressed id => exact .inr (.inr ⟨.pressed, id, rfl, exec_bitQuery_fault h⟩)
  | released id => exact .inr (.inr ⟨.released, id, rfl, exec_bitQuery_fault h⟩)
  | getpw => cases h
  | setpw v => cases h
  | getdw => cases h
  | chg => cases h
  | getlast => cases h
  | getcur => cases h

theorem exec_eq_indexRange_iff {i : Instr} {s : State} {q : BitQuery} {id : Byte} :
    exec i s = .fault (.indexRange q id) ↔ s.chips.dataWidth ≤ id.toNat ∧ i = q.instr id := by
  constructor
  · intro h
    obtain ⟨-, -, hf⟩ | ⟨op, -, -, hf⟩ | ⟨q', id', hi, hid, hf⟩ := exec_fault_cases h
    · cases hf
    · cases hf
    · cases hf
      exact ⟨hid, hi⟩
  · rintro ⟨hid, rfl⟩
    exact exec_bitQuery_of_le hid

theorem runSample_of_no_pins {op : SampleOp} {s : State} (h : s.pinSet = none) :
    runSample op s = .fault (.notBegun op) := by
  simp [runSample, h, raise]

theorem startSample_fault {op : SampleOp} {s : State} {f : Fault} (h : startSample op s = .fault f) :
    s.pinSet = none ∧ f = .notBegun op := by
  unfold startSample raise at h
  split at h
  · cases h
    exact ⟨by assumption, rfl⟩
  · cases h

/-- A sampling operation that is posted makes the same test as one executed whole, and faults alike. -/
theorem exec_of_startSample_fault {i : Instr} {op : SampleOp} {s : State} {f : Fault}
    (hop : sampleOp i = some op) (h : startSample op s = .fault f) : exec i s = .fault f := by
  have hexec : exec i s = runSample op s := by cases i <;> cases hop <;> rfl
  obtain ⟨hpins, rfl⟩ := startSample_fault h
  rw [hexec, runSample_of_no_pins hpins]

/-- What the host does next is no part of the pins. -/
@[simp] theorem State.pinSet_setInbox (l : List HostAction) (s : State) :
    (s.setInbox l).pinSet = s.pinSet := rfl

theorem advanceSample_fault {g : InFlight} {s : State} {f : Fault} (h : advanceSample g s = .fault f) :
    s.pinSet = none ∧ f = .notBegun g.op := by
  unfold advanceSample raise at h
  split at h
  · cases h
    exact ⟨by assumption, rfl⟩
  · cases h

/-- A word issued to an idle engine faults as its operation does, or as a word that is none. -/
theorem issue_fault {w : CommandWord} {s : State} {f : Fault} (h : issue w s = .fault f) :
    (∃ i, decode w = .op i ∧ exec i s = .fault f) ∨
    (∃ why, decode w = .invalid why) ∧ f = .illegalCmd w := by
  cases hw : decode w with
  | op i => exact .inl ⟨i, rfl, by simpa [issue, hw] using h⟩
  | invalid why =>
    rw [issue_of_invalid hw] at h
    cases h
    exact .inr ⟨⟨why, rfl⟩, rfl⟩

theorem post_fault {w : CommandWord} {s : State} {f : Fault} (h : post w s = .fault f) :
    (∃ i, decode w = .op i ∧ exec i s = .fault f) ∨
    (∃ why, decode w = .invalid why) ∧ f = .illegalCmd w := by
  cases hw : decode w with
  | op i =>
    refine .inl ⟨i, rfl, ?_⟩
    cases hop : sampleOp i with
    | none => simpa [post, hw, hop] using h
    | some op => exact exec_of_startSample_fault hop (by simpa [post, hw, hop] using h)
  | invalid why =>
    rw [post_of_invalid hw] at h
    cases h
    exact .inr ⟨⟨why, rfl⟩, rfl⟩

theorem step_of_idle {s : State} (h : s.engine = .idle) : step s = stepIdle s := by
  simp [step, advance, h]

theorem step_of_busy {s : State} {g : InFlight} (h : s.engine = .busy g) : step s = stepBusy g s := by
  simp [step, advance, h]

/-- The host's next action is to issue the word `w`, waiting for the response or not. -/
def State.Issues (s : State) (w : CommandWord) : Prop :=
  ∃ rest, s.inbox = .command w :: rest ∨ s.inbox = .post w :: rest

/-- An idle engine faults only on a word issued: as its operation does, or because it is none. -/
theorem stepIdle_fault {s : State} {f : Fault} (h : stepIdle s = .fault f) :
    ∃ w, s.Issues w ∧ ((∃ i l, decode w = .op i ∧ exec i (s.setInbox l) = .fault f) ∨
      (∃ why, decode w = .invalid why) ∧ f = .illegalCmd w) := by
  unfold stepIdle at h
  split at h
  case h_2 w rest hin =>
    exact ⟨w, ⟨rest, .inl hin⟩, (issue_fault h).imp_left fun ⟨i, hi⟩ => ⟨i, rest, hi⟩⟩
  case h_3 w rest hin =>
    exact ⟨w, ⟨rest, .inr hin⟩, (post_fault h).imp_left fun ⟨i, hi⟩ => ⟨i, rest, hi⟩⟩
  all_goals cases h

/-- A busy engine faults on every word issued, and else only where its pins are missing (log 3). -/
theorem stepBusy_fault {g : InFlight} {s : State} {f : Fault} (h : stepBusy g s = .fault f) :
    ((∃ w, s.Issues w) ∧ f = .reentrant) ∨ (s.pinSet = none ∧ f = .notBegun g.op) := by
  unfold stepBusy raise at h
  split at h
  case h_1 => exact .inr (advanceSample_fault h)
  case h_2 w rest hin =>
    cases h
    exact .inl ⟨⟨w, rest, .inl hin⟩, rfl⟩
  case h_3 w rest hin =>
    cases h
    exact .inl ⟨⟨w, rest, .inr hin⟩, rfl⟩
  case h_4 => cases h
  case h_5 => exact .inr (advanceSample_fault h)
  case h_6 => exact .inr (by simpa using advanceSample_fault h)

theorem stepBusy_of_issues {g : InFlight} {s : State} {w : CommandWord} (h : s.Issues w) :
    stepBusy g s = .fault .reentrant := by
  obtain ⟨rest, hin | hin⟩ := h <;> simp [stepBusy, hin, raise]

/-- `F_REENTRANT` is the port's verdict and no operation's own (60_exceptions R198). -/
theorem exec_ne_reentrant (i : Instr) (s : State) : exec i s ≠ .fault .reentrant := by
  intro h
  obtain ⟨-, -, hf⟩ | ⟨op, -, -, hf⟩ | ⟨q, id, -, -, hf⟩ := exec_fault_cases h <;> cases hf

theorem stepIdle_ne_reentrant (s : State) : stepIdle s ≠ .fault .reentrant := by
  intro h
  obtain ⟨w, -, ⟨i, l, -, hexec⟩ | ⟨-, hf⟩⟩ := stepIdle_fault h
  · exact exec_ne_reentrant i _ hexec
  · cases hf

theorem stepBusy_eq_reentrant_iff {g : InFlight} {s : State} :
    stepBusy g s = .fault .reentrant ↔ ∃ w, s.Issues w := by
  refine ⟨fun h => ?_, fun ⟨_, hw⟩ => stepBusy_of_issues hw⟩
  obtain ⟨hw, -⟩ | ⟨-, hf⟩ := stepBusy_fault h
  · exact hw
  · cases hf

end Sys2Proof.Machine

namespace Sys2Proof

open Machine

/-- Settles O13: BEGUN = 0 leaves no pins to drive, which either operation tests first. -/
theorem samplingBeforeBeginFaults : Obligations.SamplingBeforeBeginFaults := fun _ hb =>
  ⟨runSample_of_not_begun hb .read, runSample_of_not_begun hb .update⟩

/-- Settles O33: the five operations named are the five values of `BitQuery.instr`. -/
theorem indexOutOfRangeFaults : Obligations.IndexOutOfRangeFaults := by
  intro i s q id
  rw [exec_eq_indexRange_iff]
  cases q <;> simp [BitQuery.instr]

/-- Settles O39: whichever way the word is issued, the idle port decodes it first. -/
theorem invalidWordFaults : Obligations.InvalidWordFaults := by
  intro s w why rest hidle hin hw
  rw [step_of_idle hidle]
  obtain hin | hin := hin
  · simp [stepIdle, hin, issue_of_invalid hw]
  · simp [stepIdle, hin, post_of_invalid hw]

/-- Settles O40: an idle engine has no way to `F_REENTRANT`, and a busy one has it on any word issued. -/
theorem overlapFaults : Obligations.OverlapFaults := by
  intro s
  cases he : s.engine with
  | idle => simp [step_of_idle he, stepIdle_ne_reentrant]
  | busy g => simp [step_of_busy he, stepBusy_eq_reentrant_iff, State.Issues]

end Sys2Proof
end

section
/-! PROOFS. The least time of a sampling operation (70_reset_and_hazards R240). -/

namespace Sys2Proof

namespace Machine

@[simp] theorem minMicros_append (es fs : List Event) :
    minMicros (es ++ fs) = minMicros es + minMicros fs := by
  simp [minMicros]

/-- Step 3 sleeps once (41_sampling R131). -/
theorem minMicros_loadEvents (p : Pins) (pw : BitVec 8) : minMicros (loadEvents p pw) = pw.toNat := by
  simp [minMicros, loadEvents, Event.minMicros]

theorem countP_isPinCall_loadEvents (p : Pins) (pw : BitVec 8) :
    (loadEvents p pw).countP Event.isPinCall = 4 := rfl

/-- Every iteration of the shift loop sleeps once, whatever level it reads (41_sampling R132). -/
theorem minMicros_bitEvents (p : Pins) (pw : BitVec 8) (l : Level) :
    minMicros (bitEvents p pw l) = pw.toNat := by
  simp [minMicros, bitEvents, Event.minMicros]

theorem countP_isPinCall_bitEvents (p : Pins) (pw : BitVec 8) (l : Level) :
    (bitEvents p pw l).countP Event.isPinCall = 3 := rfl

theorem minMicros_flatMap_bitEvents (p : Pins) (pw : BitVec 8) (ls : List Level) :
    minMicros (ls.flatMap (bitEvents p pw)) = ls.length * pw.toNat := by
  induction ls with
  | nil => simp [minMicros]
  | cons l ls ih =>
    rw [List.flatMap_cons, minMicros_append, minMicros_bitEvents, ih, List.length_cons]
    ring

theorem countP_isPinCall_flatMap_bitEvents (p : Pins) (pw : BitVec 8) (ls : List Level) :
    (ls.flatMap (bitEvents p pw)).countP Event.isPinCall = 3 * ls.length := by
  induction ls with
  | nil => rfl
  | cons l ls ih =>
    rw [List.flatMap_cons, List.countP_append, countP_isPinCall_bitEvents, ih, List.length_cons]
    ring

theorem minMicros_sampleEvents (p : Pins) (pw : BitVec 8) (ls : List Level) :
    minMicros (sampleEvents p pw ls) = (ls.length + 1) * pw.toNat := by
  rw [sampleEvents, minMicros_append, minMicros_loadEvents, minMicros_flatMap_bitEvents]
  ring

theorem countP_isPinCall_sampleEvents (p : Pins) (pw : BitVec 8) (ls : List Level) :
    (sampleEvents p pw ls).countP Event.isPinCall = 4 + 3 * ls.length := by
  rw [sampleEvents, List.countP_append, countP_isPinCall_loadEvents,
    countP_isPinCall_flatMap_bitEvents]

/-- A READ or an UPDATE that completes had its pins, and took one whole sample of the chain. -/
theorem exec_sampled {i : Instr} {s t : State} (hi : i = .read ∨ i = .update)
    (h : exec i s = .next t) :
    ∃ (p : Pins) (ls : List Level), s.pinSet = some p ∧ ls.length = s.chips.dataWidth ∧
      Sampled p ls s t := by
  have hrun : ∃ op, runSample op s = .next t := by
    obtain rfl | rfl := hi
    · exact ⟨.read, h⟩
    · exact ⟨.update, h⟩
  obtain ⟨op, hop⟩ := hrun
  obtain ⟨p, hp, rfl⟩ := runSample_cases hop
  obtain ⟨ls, hlen, hsampled⟩ := exists_sampled_sample p s
  exact ⟨p, ls, hp, hlen, hsampled.respond _⟩

theorem Sampled.trace_eq {p : Pins} {ls : List Level} {s t : State} (h : Sampled p ls s t) :
    t.trace = s.trace ++ sampleEvents p s.pw ls := by
  obtain ⟨rs, o, e, a, d, rfl, -⟩ := h
  rfl

end Machine

open Machine

/-- Settles O20: the events added are those of a sample of `W` levels, one Sleep and four writes for the
load phase and one Sleep and three pin calls for each level. -/
theorem sampleTakesAtLeast : Obligations.SampleTakesAtLeast := by
  intro s t i hi h
  obtain ⟨p, ls, -, hlen, hsampled⟩ := exec_sampled hi h
  refine ⟨sampleEvents p s.pw ls, hsampled.trace_eq, ?_, ?_⟩
  · rw [minMicros_sampleEvents, hlen]
  · rw [countP_isPinCall_sampleEvents, hlen]

end Sys2Proof
end

section
/-! PROOFS. The decoder and the encoder are inverse to each other (30_encoding R83 to R90). -/

namespace Sys2Proof

@[simp] theorem decodeZ_packWord (op : Byte) (i : Instr) : decodeZ (packWord op 0#8 0#8 0#8 0#8) i = .op i := by
  simp [decodeZ, cmdHi0]

@[simp] theorem decodeB0_packWord (op b : Byte) (i : Byte → Instr) :
    decodeB0 (packWord op 0#8 0#8 0#8 b) i = .op (i b) := by
  simp [decodeB0, cmdHi0]

/-- 30_encoding R90: each opcode of `encode` selects its own branch of `decode`, which finds the operands
in the bytes that `encode` put them in and zero in the rest. -/
theorem decode_encode (i : Instr) : decode (encode i) = .op i := by
  cases i <;> simp [encode, decode]

section
variable {w : CommandWord} {n : Nat} (hop : (cmdOpcode w).toNat = n)
include hop

theorem cmdOpcode_eq_ofNat : cmdOpcode w = BitVec.ofNat 8 n := by
  rw [← hop, BitVec.ofNat_toNat, BitVec.setWidth_eq]

theorem encode_of_decodeZ {i j : Instr} (henc : encode i = packWord (BitVec.ofNat 8 n) 0 0 0 0)
    (h : decodeZ w i = .op j) : encode j = w := by
  obtain ⟨rfl, hw⟩ := decodeZ_cases h
  rw [hw, henc, cmdOpcode_eq_ofNat hop]

theorem encode_of_decodeB0 {i : Byte → Instr} {j : Instr}
    (henc : ∀ b, encode (i b) = packWord (BitVec.ofNat 8 n) 0 0 0 b) (h : decodeB0 w i = .op j) :
    encode j = w := by
  obtain ⟨rfl, hw⟩ := decodeB0_cases h
  conv_rhs => rw [hw]
  rw [henc, cmdOpcode_eq_ofNat hop]

end

/-- 30_encoding R90: the branch of `decode` that answered knows the opcode, and its operand test says that
the word has no other bit than `encode` sets. -/
theorem encode_of_decode {w : CommandWord} {i : Instr} (h : decode w = .op i) : encode i = w := by
  unfold decode at h
  split at h
  case h_1 hop =>
    cases h
    exact (congrArg (packWord · _ _ _ _) (cmdOpcode_eq_ofNat hop).symm).trans (packWord_fields w)
  case h_15 => cases h
  case h_3 | h_8 | h_9 | h_10 | h_11 | h_12 =>
    exact encode_of_decodeB0 (by assumption) (fun _ => rfl) h
  all_goals exact encode_of_decodeZ (by assumption) rfl h

/-- Settles O34: `decode_encode` and `encode_of_decode`. -/
theorem decodeAndEncodeAreInverse : Obligations.DecodeAndEncodeAreInverse :=
  ⟨decode_encode, fun _ _ h => encode_of_decode h⟩

/-- Settles O36: six words, each a closed evaluation of the decoder. -/
theorem wordsOfTheEncodingTable : Obligations.WordsOfTheEncodingTable := by
  unfold Obligations.WordsOfTheEncodingTable
  decide

end Sys2Proof
end

section
/-! PROOFS. The chip counts, and the state each resets to (00_scope R6, 10_state R37, 70_reset_and_hazards
R220). -/

namespace Sys2Proof

/-- Settles O1: the constructor tests the bounds of 00_scope R6 and keeps the number. -/
theorem chipCountOutsideOneToEightIsRefused : Obligations.ChipCountOutsideOneToEightIsRefused := by
  intro n
  unfold ChipCount.ofNat?
  split
  · rename_i hn
    refine ⟨fun c hc => ?_, by simp [hn]⟩
    cases hc
    rfl
  · rename_i hn
    exact ⟨nofun, by simpa using hn⟩

open Machine

/-- Settles O3: `State.resetOf` writes these values, and an empty shadow holds no pin. -/
theorem resetLeavesTheStatedValues : Obligations.ResetLeavesTheStatedValues := fun _ =>
  ⟨rfl, rfl, rfl, rfl, rfl, rfl, rfl, rfl, rfl, rfl, fun _ => ⟨rfl, rfl⟩⟩

/-- The reset state meets the invariant for every chip count: no bit is set, no pin is named, and nothing is
in flight. -/
theorem Machine.State.inv_resetOf (c : ChipCount) : (State.resetOf c).Inv where
  cur_lt := Nat.two_pow_pos _
  last_lt := Nat.two_pow_pos _
  pins_begun := ⟨rfl, rfl, rfl, rfl⟩
  dirs_wf := ⟨.nil, by simp [State.resetOf]⟩
  outs_wf := ⟨.nil, by simp [State.resetOf]⟩
  engine_ok := fun f hf => by cases hf

/-- Settles O4: `State.inv_resetOf`. -/
theorem resetMeetsInvariant : Obligations.ResetMeetsInvariant := State.inv_resetOf

/-- Settles O41: an idle and a busy port take the reset alike. -/
theorem externalResetGivesANewInstance : Obligations.ExternalResetGivesANewInstance := by
  intro s rest hin
  cases he : s.engine with
  | idle =>
    rw [step_of_idle he]
    simp only [stepIdle, hin]
    rfl
  | busy f =>
    rw [step_of_busy he]
    simp only [stepBusy, hin]
    rfl

/-- Settles O6: after the BEGUN test the environment alone decides, and of the two only SimChain tests the
pins. -/
theorem simChainRefusesCoincidingPins : Obligations.SimChainRefusesCoincidingPins := by
  intro s ld ce da ck hb
  have hexec : exec (.begin ld ce da ck) s = .refused .simChainPins ↔
      s.env.accepts ⟨ld, ce, da, ck⟩ = false := by
    cases ha : s.env.accepts ⟨ld, ce, da, ck⟩ <;> simp [exec, execBegin, hb, ha]
  rw [hexec]
  cases s.env with
  | oracle => simp [Environment.accepts]
  | simChain m => simp [Environment.accepts]

end Sys2Proof
end

section
/-! PROOFS. The invariant of the machine: every write of the state keeps `State.Inv`, so every step does
(10_state R23, R28, R29, R31, R34). -/

namespace Sys2Proof

/-- A value below `2^w` has no bit from `w` up. -/
theorem getLsbD_eq_false_of_lt_two_pow {v : Bitfield} {w j : Nat} (h : v.toNat < 2 ^ w) (hj : w ≤ j) :
    v.getLsbD j = false :=
  Nat.testBit_lt_two_pow (Nat.lt_of_lt_of_le h (Nat.pow_le_pow_right (by omega) hj))

theorem ChipCount.toNat_toStorage_le (c : ChipCount) (v : Bitfield) :
    (c.toStorage v).toNat ≤ v.toNat := by
  rw [c.toNat_toStorage]
  exact Nat.mod_le _ _

namespace Machine

/-- A bit inserted below `w` leaves the value below `2^w`. -/
theorem insertBit_lt {acc : Bitfield} {n w : Nat} (h : acc.toNat < 2 ^ w) (hn : n < w) (hw : w ≤ 64)
    (b : Bool) : (insertBit acc n b).toNat < 2 ^ w := by
  refine Nat.lt_pow_two_of_testBit _ fun j hj => ?_
  have hbit := getLsbD_insertBit acc (show n < 64 by omega) b j
  rwa [getLsbD_eq_false_of_lt_two_pow h hj, show decide (j = n) = false by simp; omega] at hbit

namespace State.Inv

section
variable {s : State} (h : s.Inv)
include h

theorem respond (r : ResponseWord) : (s.respond r).Inv := { h with }

theorem setPw (v : BitVec 8) : (s.setPw v).Inv := { h with }

theorem setInbox (l : List HostAction) : (s.setInbox l).Inv := { h with }

theorem setInputs (v : Bitfield) : (s.setInputs v).Inv := { h with }

theorem setCur {v : Bitfield} (hv : (s.chips.toStorage v).toNat < 2 ^ s.chips.dataWidth) :
    (s.setCur v).Inv := { h with cur_lt := hv }

theorem setLast {v : Bitfield} (hv : (s.chips.toStorage v).toNat < 2 ^ s.chips.dataWidth) :
    (s.setLast v).Inv := { h with last_lt := hv }

/-- Step 1 of a sampling operation (41_sampling R130). -/
theorem setLast_curVal : (s.setLast s.curVal).Inv :=
  h.setLast (by
    rw [State.curVal, s.chips.toStorage_toStorage]
    exact Nat.lt_of_le_of_lt (s.chips.toNat_toStorage_le _) h.cur_lt)

theorem setEngine {e : Engine} (he : ∀ f, e = .busy f → s.begun = true ∧ f.Ok s.chips) :
    (s.setEngine e).Inv := { h with engine_ok := he }

theorem setEngine_busy {f : InFlight} (hb : s.begun = true) (hf : f.Ok s.chips) :
    (s.setEngine (.busy f)).Inv :=
  h.setEngine fun _ hg => Engine.busy.inj hg ▸ ⟨hb, hf⟩

theorem emit (p : Pins) (e : Event) : (s.emit p e).Inv :=
  { h with dirs_wf := mapWf_noteDir e h.dirs_wf, outs_wf := mapWf_noteOut e h.outs_wf }

theorem pinRead (p : Pins) : (s.pinRead p).2.Inv := by
  rw [s.pinRead_snd p]
  exact { h with }

theorem loadPhase (p : Pins) : (loadPhase p s).Inv :=
  ((((h.emit p _).emit p _).emit p _).emit p _).emit p _

theorem clockPulse (p : Pins) : (clockPulse p s).Inv := ((h.emit p _).emit p _).emit p _

/-- BEGIN writes the four pin registers and BEGUN together (10_state R28, R29). -/
theorem configure {p : Pins} (ha : s.env.accepts p = true) :
    (((s.setPins p).emitAll p (beginEvents p)).setBegun).Inv := by
  rw [State.emitAll_beginEvents (s := s.setPins p) ha]
  exact { h with
    pins_begun := ⟨rfl, rfl, rfl, rfl⟩
    dirs_wf := mapWf_mapPut p.clk.isLt (mapWf_mapPut p.data.isLt (mapWf_mapPut p.clken.isLt
      (mapWf_mapPut p.load.isLt h.dirs_wf)))
    outs_wf := mapWf_mapPut p.load.isLt (mapWf_mapPut p.clk.isLt h.outs_wf)
    engine_ok := fun f hf => ⟨rfl, (h.engine_ok f hf).2⟩ }

end

theorem shiftLoop (p : Pins) (n : Nat) : ∀ (acc : Bitfield) {s : State}, s.Inv →
    (Machine.shiftLoop p n acc s).2.Inv := by
  induction n with
  | zero => exact fun _ _ h => h
  | succ n ih => exact fun _ _ h => ih _ ((h.pinRead p).clockPulse p)

end State.Inv

/-- The fields that the five steps of a sampling operation write (41_sampling R130). -/
theorem sample_eq (p : Pins) (s : State) : sample p s = { s with
    last := s.curVal
    cur := (sample p s).cur
    trace := (sample p s).trace
    outs := (sample p s).outs
    env := (sample p s).env
    answers := (sample p s).answers
    draws := (sample p s).draws } := by
  obtain ⟨ls, o, e, a, d, -, hsample, -⟩ := sample_spec p s
  rw [hsample]

section
variable (p : Pins) (s : State)

@[simp] theorem sample_chips : (sample p s).chips = s.chips := by rw [sample_eq]
@[simp] theorem sample_last : (sample p s).last = s.curVal := by rw [sample_eq]
@[simp] theorem sample_pw : (sample p s).pw = s.pw := by rw [sample_eq]
@[simp] theorem sample_begun : (sample p s).begun = s.begun := by rw [sample_eq]
@[simp] theorem sample_pinLoad : (sample p s).pinLoad = s.pinLoad := by rw [sample_eq]
@[simp] theorem sample_pinClken : (sample p s).pinClken = s.pinClken := by rw [sample_eq]
@[simp] theorem sample_pinData : (sample p s).pinData = s.pinData := by rw [sample_eq]
@[simp] theorem sample_pinClk : (sample p s).pinClk = s.pinClk := by rw [sample_eq]

theorem sample_engine : (sample p s).engine = s.engine := by rw [sample_eq]

@[simp] theorem sample_pinSet : (sample p s).pinSet = s.pinSet :=
  State.pinSet_congr ⟨by simp, by simp, by simp, by simp, by simp⟩

/-- A sample has `W` bits (10_state R23). -/
theorem sample_cur_lt : (sample p s).cur.toNat < 2 ^ s.chips.dataWidth := by
  obtain ⟨ls, o, e, a, d, hlen, hsample, -⟩ := sample_spec p s
  rw [hsample, ← hlen, toNat_ofNat_sampleNat (hlen ▸ s.chips.dataWidth_bounds.2)]
  exact sampleNat_lt ls

end

/-- A sampling operation writes no more than `W` bits to its two registers. -/
theorem State.Inv.sample {s : State} (h : s.Inv) (p : Pins) : (sample p s).Inv := by
  refine ((h.setLast_curVal.loadPhase p).shiftLoop p _ _).setCur ?_
  have hlt := sample_cur_lt p s
  rwa [← sample_chips p s] at hlt

/-- Every operation keeps the invariant, in an engine of any state. -/
theorem State.Inv.exec {i : Instr} {s t : State} (h : s.Inv) (hexec : exec i s = .next t) : t.Inv := by
  obtain ⟨r, rfl, -⟩ | ⟨v, -, rfl⟩ | ⟨op, p, -, -, rfl⟩ | ⟨p, -, -, ha, rfl⟩ := exec_cases hexec
  · exact h.respond r
  · exact (h.setPw v).respond _
  · exact (h.sample p).respond _
  · exact (h.configure ha).respond _

theorem InFlight.ok_start (c : ChipCount) (op : SampleOp) : InFlight.Ok c ⟨op, .clkenHigh, 0, 0⟩ :=
  ⟨Nat.two_pow_pos _, rfl, rfl⟩

/-- One position of the sequencer keeps the invariant: the load phase leaves `ACC` and `I` at 0, an
iteration writes one bit of `ACC` below `W` and counts `I` up to at most `W`, and step 5 stores `ACC`. -/
theorem State.Inv.runPosition {s : State} {f : InFlight} (h : s.Inv) (hb : s.begun = true)
    (hf : f.Ok s.chips) (p : Pins) : (runPosition p f s).Inv := by
  have hw := s.chips.dataWidth_bounds
  obtain ⟨hacc, hpos⟩ := hf
  unfold Machine.runPosition
  split <;> rename_i hat <;> simp only [hat] at hpos
  case h_1 | h_2 | h_3 | h_4 | h_7 | h_8 => exact (h.emit p _).setEngine_busy hb ⟨hacc, hpos⟩
  case h_5 => exact (h.emit p _).setEngine_busy hb ⟨hacc, by simp [hpos]; omega⟩
  case h_6 =>
    refine (h.pinRead p).setEngine_busy ?_ ?_
    · rwa [s.pinRead_snd p]
    · rw [s.pinRead_snd p]
      exact ⟨insertBit_lt hacc (by omega) hw.2 _, hpos⟩
  case h_9 =>
    refine (h.emit p _).setEngine_busy hb ⟨hacc, ?_⟩
    by_cases hmore : f.i + 1 < s.chips.dataWidth
    · simp [hmore]
    · simp [hmore]
      omega
  case h_10 =>
    have hstored := Nat.lt_of_le_of_lt (s.chips.toNat_toStorage_le f.acc) hacc
    exact ((h.setCur hstored).setEngine (by simp)).respond _

theorem State.inv_applyReset (s : State) : s.applyReset.Inv := { State.inv_resetOf s.chips with }

end Machine

open Machine

/-- Settles O42: `step_cases` lists what a step does, and each of it keeps the invariant. -/
theorem everyStepKeepsTheInvariant : Obligations.EveryStepKeepsTheInvariant := by
  intro s t h hstep
  obtain ⟨-, l, rfl⟩ | ⟨-, l, i, hexec⟩ | ⟨-, l, op, p, hp, rfl⟩ | ⟨-, l, v, rfl⟩ | ⟨l, rfl⟩ |
    ⟨l, f, p, he, -, rfl⟩ := step_cases hstep
  · exact h.setInbox l
  · exact (h.setInbox l).exec hexec
  · obtain ⟨hb, -⟩ := State.pinSet_eq_some.1 hp
    exact (h.setInbox l).setLast_curVal.setEngine_busy hb (InFlight.ok_start _ _)
  · exact (h.setInbox l).setInputs v
  · exact State.inv_applyReset _
  · obtain ⟨hb, hf⟩ := h.engine_ok f he
    exact (h.setInbox l).runPosition hb hf p

end Sys2Proof
end

section
/-! PROOFS. What an operation leaves unchanged: the chip count, the generations, the configuration, the trace
and the responses (10_state R21 to R29, 30_encoding R91, 60_exceptions R198). -/

namespace Sys2Proof

namespace Machine

/-- The sequencer before step 5: one event, and nothing written but the levels, the environment and the
engine, which keeps the operation in flight (41_sampling R133, R135). -/
theorem runPosition_event (p : Pins) {f : InFlight} (s : State) (hf : f.pos ≠ .store) :
    ∃ (e : Event) (g : InFlight) (o : PinMap Level) (env : Environment) (a : List Level) (d : Nat),
      runPosition p f s = { s with
        trace := s.trace ++ [e], engine := .busy g, outs := o, env := env, answers := a, draws := d } ∧
      g.op = f.op ∧ s.env.KeepsInputs env := by
  unfold runPosition
  split
  case h_6 =>
    obtain ⟨l, a, d, hread⟩ := pinRead_spec p s
    rw [takeBit, hread]
    exact ⟨_, _, _, _, _, _, rfl, rfl, .refl s.env⟩
  case h_10 hstore => exact absurd hstore hf
  all_goals exact ⟨_, _, _, _, _, _, rfl, rfl, s.emit_keepsInputs p _⟩

/-- The sequencer at step 5 (41_sampling R130, R136). -/
theorem runPosition_store (p : Pins) {f : InFlight} (s : State) (hf : f.pos = .store) :
    ∃ r, runPosition p f s = { s with
      cur := s.chips.toStorage f.acc, engine := .idle, responses := s.responses ++ [r] } := by
  simp only [runPosition, hf]
  exact ⟨_, rfl⟩

theorem runPosition_chips (p : Pins) (f : InFlight) (s : State) :
    (runPosition p f s).chips = s.chips := by
  by_cases hf : f.pos = .store
  · obtain ⟨r, hrun⟩ := runPosition_store p s hf
    rw [hrun]
  · obtain ⟨e, g, o, env, a, d, hrun, -⟩ := runPosition_event p s hf
    rw [hrun]

/-- What BEGIN leaves, in the terms of the statements (40_config_ops R110). -/
theorem configure_eq {s : State} {p : Pins} (ha : s.env.accepts p = true) :
    ((s.setPins p).emitAll p (beginEvents p)).setBegun = { s with
      pinLoad := some p.load
      pinClken := some p.clken
      pinData := some p.data
      pinClk := some p.clk
      begun := true
      trace := s.trace ++ beginEvents p
      dirs := beginDirs p s.dirs
      outs := beginOuts p s.outs } := by
  rw [State.emitAll_beginEvents (s := s.setPins p) ha]
  rfl

theorem exec_chips {i : Instr} {s t : State} (h : exec i s = .next t) : t.chips = s.chips := by
  obtain ⟨r, rfl, -⟩ | ⟨v, -, rfl⟩ | ⟨op, p, -, -, rfl⟩ | ⟨p, -, -, ha, rfl⟩ := exec_cases h
  · rfl
  · rfl
  · exact sample_chips p s
  · rw [configure_eq ha]
    rfl

/-- READ and UPDATE are the operations that sample. -/
theorem sampleOp_eq_some {i : Instr} {op : SampleOp} (h : sampleOp i = some op) :
    (i = .read ∧ op = .read) ∨ (i = .update ∧ op = .update) := by
  cases i <;> cases h
  · exact .inl ⟨rfl, rfl⟩
  · exact .inr ⟨rfl, rfl⟩

theorem sampleOp_ne_some {i : Instr} {op : SampleOp} (hr : i ≠ .read) (hu : i ≠ .update) :
    sampleOp i ≠ some op := by
  intro h
  obtain ⟨hi, -⟩ | ⟨hi, -⟩ := sampleOp_eq_some h
  · exact hr hi
  · exact hu hi

/-- After BEGIN the sampling operations have their pins, in every state that meets the invariant. -/
theorem State.Inv.exists_pinSet {s : State} (h : s.Inv) (hb : s.begun = true) :
    ∃ p, s.pinSet = some p := by
  obtain ⟨hload, hclken, hdata, hclk⟩ := h.pins_begun
  rw [hb, Option.isSome_iff_exists] at hload hclken hdata hclk
  obtain ⟨ld, hload⟩ := hload
  obtain ⟨ce, hclken⟩ := hclken
  obtain ⟨da, hdata⟩ := hdata
  obtain ⟨ck, hclk⟩ := hclk
  exact ⟨⟨ld, ce, da, ck⟩, State.pinSet_eq_some.2 ⟨hb, hload, hclken, hdata, hclk⟩⟩

/-- A single-bit query inside the sample completes. -/
theorem exec_bitQuery_of_lt (q : BitQuery) {id : Byte} {s : State} (h : id.toNat < s.chips.dataWidth) :
    exec (q.instr id) s = .next (s.respond (boolWord (q.bit s id.toNat))) := by
  rw [exec_bitQuery, answerBit_of_lt h]

/-- A single-bit query is well-formed exactly below `W` (20_memory R51). -/
theorem BitQuery.wellFormed_instr (q : BitQuery) (id : Byte) (c : ChipCount) :
    (q.instr id).wellFormed c = decide (id.toNat < c.dataWidth) := by
  cases q <;> rfl

end Machine

open Machine

/-- Settles O43: the chip count is a field that no operation, no position of the sequencer and no reset
writes. -/
theorem noStepChangesTheInstance : Obligations.NoStepChangesTheInstance := by
  intro s t hstep
  obtain ⟨-, l, rfl⟩ | ⟨-, l, i, hexec⟩ | ⟨-, l, op, p, -, rfl⟩ | ⟨-, l, v, rfl⟩ | ⟨l, rfl⟩ |
    ⟨l, f, p, -, -, rfl⟩ := step_cases hstep
  · rfl
  · rw [exec_chips hexec, State.setInbox_chips]
  · rfl
  · rfl
  · rfl
  · exact runPosition_chips p f _

/-- Settles O44: of the four things an operation can do, only sampling writes the two registers. -/
theorem onlySamplingWritesTheGenerations : Obligations.OnlySamplingWritesTheGenerations := by
  intro i s t h hr hu
  obtain ⟨r, rfl, -⟩ | ⟨v, -, rfl⟩ | ⟨op, p, hop, -⟩ | ⟨p, -, -, ha, rfl⟩ := exec_cases h
  · exact ⟨rfl, rfl⟩
  · exact ⟨rfl, rfl⟩
  · exact absurd hop (sampleOp_ne_some hr hu)
  · rw [configure_eq ha]
    exact ⟨rfl, rfl⟩

/-- Settles O45: only BEGIN writes the pin registers, and after BEGIN it faults. -/
theorem pinsAreImmutableAfterBegin : Obligations.PinsAreImmutableAfterBegin := by
  intro i s t hb h
  obtain ⟨r, rfl, -⟩ | ⟨v, -, rfl⟩ | ⟨op, p, -, -, rfl⟩ | ⟨p, -, hnb, -⟩ := exec_cases h
  · exact ⟨hb, rfl, rfl, rfl, rfl⟩
  · exact ⟨hb, rfl, rfl, rfl, rfl⟩
  · simp [hb]
  · simp [hb] at hnb

/-- Settles O46: of the four things an operation can do, only SETPW's writes the pulse width. -/
theorem onlySetpwWritesThePulseWidth : Obligations.OnlySetpwWritesThePulseWidth := by
  intro i s t h
  obtain ⟨r, rfl, -⟩ | ⟨v, hi, rfl⟩ | ⟨op, p, -, -, rfl⟩ | ⟨p, -, -, ha, rfl⟩ := exec_cases h
  · exact .inl rfl
  · exact .inr hi
  · exact .inl (sample_pw p s)
  · rw [configure_eq ha]
    exact .inl rfl

/-- Settles O47: each of the four things an operation can do ends in one response, and the two that emit
events are READ's and UPDATE's, and BEGIN's. -/
theorem oneResponseAndEventsOnlyAdded : Obligations.OneResponseAndEventsOnlyAdded := by
  intro i s t h
  obtain ⟨r, rfl, -⟩ | ⟨v, -, rfl⟩ | ⟨op, p, hop, -, rfl⟩ | ⟨p, hi, -, ha, rfl⟩ := exec_cases h
  · exact ⟨⟨r, rfl⟩, ⟨[], by simp⟩, fun _ _ _ => ⟨rfl, rfl, rfl, rfl, rfl, rfl⟩⟩
  · exact ⟨⟨noResult, rfl⟩, ⟨[], by simp⟩, fun _ _ _ => ⟨rfl, rfl, rfl, rfl, rfl, rfl⟩⟩
  · obtain ⟨ls, -, hsampled⟩ := exists_sampled_sample p s
    refine ⟨⟨_, by rw [State.respond_responses, sample_responses]⟩, ⟨_, hsampled.trace_eq⟩,
      fun _ hr hu => ?_⟩
    exact absurd hop (sampleOp_ne_some hr hu)
  · rw [configure_eq ha]
    exact ⟨⟨noResult, rfl⟩, ⟨beginEvents p, rfl⟩, fun hne => absurd hi (hne _ _ _ _)⟩

/-- Settles O48: the three kinds of check of `exec_fault_cases`. -/
theorem eachOperationHasAtMostOneCheck : Obligations.EachOperationHasAtMostOneCheck := by
  intro i s f h
  obtain ⟨hi, hb, rfl⟩ | ⟨op, hop, hpins, rfl⟩ | ⟨q, id, rfl, hid, rfl⟩ := exec_fault_cases h
  · exact .inr (.inr (.inr ⟨rfl, hi, hb⟩))
  · obtain ⟨rfl, rfl⟩ | ⟨rfl, rfl⟩ := sampleOp_eq_some hop
    · exact .inr (.inl ⟨rfl, rfl, hpins⟩)
    · exact .inr (.inr (.inl ⟨rfl, rfl, hpins⟩))
  · exact .inl ⟨q, id, rfl, by simp [q.wellFormed_instr, hid]⟩

/-- Settles O49: the premises are what each operation checks; the rest check nothing. -/
theorem wellFormedOperationsComplete : Obligations.WellFormedOperationsComplete := by
  intro i s h hwf hbegin hsample
  have hpins (hi : i = .read ∨ i = .update) : ∃ p, s.pinSet = some p :=
    h.exists_pinSet (hsample hi)
  have hquery (q : BitQuery) (id : Byte) (hi : i = q.instr id) : ∃ t, exec i s = .next t := by
    subst hi
    rw [q.wellFormed_instr, decide_eq_true_eq] at hwf
    exact ⟨_, exec_bitQuery_of_lt q hwf⟩
  cases i with
  | begin ld ce da ck =>
    obtain ⟨hb, ha⟩ := hbegin ld ce da ck rfl
    exact ⟨_, exec_begin_of_accepts hb ha⟩
  | read =>
    obtain ⟨p, hp⟩ := hpins (.inl rfl)
    exact ⟨_, exec_read_of_pins hp⟩
  | update =>
    obtain ⟨p, hp⟩ := hpins (.inr rfl)
    exact ⟨_, exec_update_of_pins hp⟩
  | chgi id => exact hquery .chgi id rfl
  | state id => exact hquery .state id rfl
  | last id => exact hquery .last id rfl
  | pressed id => exact hquery .pressed id rfl
  | released id => exact hquery .released id rfl
  | getpw => exact ⟨_, rfl⟩
  | setpw v => exact ⟨_, rfl⟩
  | getdw => exact ⟨_, rfl⟩
  | chg => exact ⟨_, rfl⟩
  | getlast => exact ⟨_, rfl⟩
  | getcur => exact ⟨_, rfl⟩

end Sys2Proof
end

section
/-! PROOFS. The events of a sampling operation, and the levels it leaves (41_sampling R131 to R133, R137,
R138). -/

namespace Sys2Proof

namespace Machine

section
variable (p : Pins) (pw : BitVec 8) (ls : List Level)

theorem length_sampleEvents : (sampleEvents p pw ls).length = 5 + 4 * ls.length := by
  simp [sampleEvents, loadEvents, bitEvents]
  omega

/-- What counts `a` events of the load phase and `b` of every iteration. -/
theorem countP_sampleEvents {f : Event → Bool} {a b : Nat} (hload : (loadEvents p pw).countP f = a)
    (hbit : ∀ l, (bitEvents p pw l).countP f = b) :
    (sampleEvents p pw ls).countP f = a + b * ls.length := by
  simp [sampleEvents, List.countP_flatMap, hload, Function.comp_def, hbit, Nat.mul_comm]

theorem countP_isPinWrite_sampleEvents :
    (sampleEvents p pw ls).countP isPinWrite = 4 + 2 * ls.length :=
  countP_sampleEvents p pw ls rfl fun _ => rfl

theorem countP_isReadOf_sampleEvents :
    (sampleEvents p pw ls).countP (isReadOf p.data) = ls.length := by
  have h := countP_sampleEvents p pw ls (f := isReadOf p.data)
    (rfl : (loadEvents p pw).countP _ = 0)
    (fun _ => by simp [bitEvents, isReadOf] : ∀ l, (bitEvents p pw l).countP _ = 1)
  omega

theorem countP_sleep_sampleEvents :
    (sampleEvents p pw ls).countP (fun e => e == .sleep pw) = ls.length + 1 := by
  have h := countP_sampleEvents p pw ls (f := fun e => e == .sleep pw)
    (by simp [loadEvents] : (loadEvents p pw).countP _ = 1)
    (fun _ => by simp [bitEvents] : ∀ l, (bitEvents p pw l).countP _ = 1)
  omega

end

/-- Without the answers an iteration is the same whatever level it reads, so only their number shows. -/
theorem map_eraseAnswer_sampleEvents {p : Pins} {pw : BitVec 8} {ls ls' : List Level}
    (h : ls.length = ls'.length) :
    (sampleEvents p pw ls).map eraseAnswer = (sampleEvents p pw ls').map eraseAnswer := by
  have hbits (ks : List Level) : (ks.flatMap (bitEvents p pw)).map eraseAnswer =
      (List.replicate ks.length (bitEvents p pw .low)).flatten := by
    induction ks with
    | nil => rfl
    | cons k ks ih =>
      rw [List.flatMap_cons, List.map_append, ih]
      rfl
  simp only [sampleEvents, List.map_append, hbits, h]

/-- Every iteration of the shift loop leaves the clock line LOW, and a sample has one at least. -/
theorem shiftLoop_succ_outs_clk (p : Pins) (n : Nat) (acc : Bitfield) (s : State) :
    mapGet p.clk.toNat (shiftLoop p (n + 1) acc s).2.outs = some .low := by
  rw [shiftLoop]
  exact shiftLoop_outs_clk p n _ _ (by simp [clockPulse_outs])

/-- The levels after a sample whose driven pins differ (41_sampling R138). -/
theorem sample_levels {p : Pins} (hle : p.load ≠ p.clken) (hlk : p.load ≠ p.clk)
    (hek : p.clken ≠ p.clk) (s : State) :
    mapGet p.load.toNat (sample p s).outs = some .high ∧
    mapGet p.clken.toNat (sample p s).outs = some .low ∧
    mapGet p.clk.toNat (sample p s).outs = some .low := by
  rw [ne_eq, ← BitVec.toNat_inj] at hle hlk hek
  obtain ⟨n, hn⟩ : ∃ n, s.chips.dataWidth = n + 1 :=
    ⟨s.chips.dataWidth - 1, by have := s.chips.dataWidth_bounds; omega⟩
  simp only [sample, State.setCur_outs]
  refine ⟨?_, ?_, ?_⟩
  · rw [shiftLoop_outs_other p hlk, loadPhase_outs]
    simp [mapGet_mapPut, hle]
  · rw [shiftLoop_outs_other p hek, loadPhase_outs]
    simp
  · rw [hn]
    exact shiftLoop_succ_outs_clk p n _ _

theorem exec_sample_of_pins {i : Instr} {s t : State} {p : Pins} (hp : s.pinSet = some p)
    (hi : i = .read ∨ i = .update) (h : exec i s = .next t) : ∃ r, t = (sample p s).respond r := by
  obtain rfl | rfl := hi
  · rw [exec_read_of_pins hp] at h
    exact ⟨_, (Host.Outcome.next.inj h).symm⟩
  · rw [exec_update_of_pins hp] at h
    exact ⟨_, (Host.Outcome.next.inj h).symm⟩

/-- LevelsReady is about the pin registers and the levels alone. -/
theorem State.LevelsReady.congr {s t : State} (h : s.LevelsReady) (hp : t.pinSet = s.pinSet)
    (ho : t.outs = s.outs) : t.LevelsReady := by
  unfold State.LevelsReady
  rw [hp, ho]
  exact h

end Machine

open Machine

/-- Settles O14: the five events of the load phase and, for each of the `W` levels read, the four of an
iteration, counted by kind. -/
theorem sampleEventCounts : Obligations.SampleEventCounts := by
  intro s t p i hp hi h
  obtain ⟨q, ls, hq, hlen, hsampled⟩ := exec_sampled hi h
  obtain rfl : p = q := Option.some.inj (hp.symm.trans hq)
  refine ⟨_, hsampled.trace_eq, ?_, ?_, ?_, ?_⟩
  · rw [length_sampleEvents, hlen]
  · rw [countP_isPinWrite_sampleEvents, hlen]
  · rw [countP_isReadOf_sampleEvents, hlen]
  · rw [countP_sleep_sampleEvents, hlen]

/-- Settles O15: both READs read `W` levels, and the events of a sample without its answers depend on that
number, PW and the pins alone. -/
theorem eventsDoNotDependOnLevels : Obligations.EventsDoNotDependOnLevels := by
  intro s s' t t' p hp hp' hpw hchips h h'
  rw [exec_read_of_pins hp, Host.Outcome.next.injEq] at h
  rw [exec_read_of_pins hp', Host.Outcome.next.injEq] at h'
  subst h h'
  obtain ⟨ls, hlen, hsampled⟩ := exists_sampled_sample p s
  obtain ⟨ls', hlen', hsampled'⟩ := exists_sampled_sample p s'
  refine ⟨_, _, hsampled.trace_eq, hsampled'.trace_eq, ?_⟩
  rw [hpw]
  exact map_eraseAnswer_sampleEvents (by rw [hlen, hlen', hchips])

/-- Settles O16: `sample_levels`. -/
theorem pinLevelsAfterSample : Obligations.PinLevelsAfterSample := by
  intro s t p i hp hi hle hlk hek h
  obtain ⟨r, rfl⟩ := exec_sample_of_pins hp hi h
  exact sample_levels hle hlk hek s

/-- Settles O17: sampling and BEGIN each write the two levels last, and nothing else writes a level. -/
theorem levelsReadyIsKept : Obligations.LevelsReadyIsKept := by
  intro i s t hready h
  obtain ⟨r, rfl, -⟩ | ⟨v, -, rfl⟩ | ⟨op, p, -, hp, rfl⟩ | ⟨p, -, -, ha, rfl⟩ := exec_cases h
  · exact hready.congr rfl rfl
  · exact hready.congr rfl rfl
  · intro q hq hlk hle hek
    obtain rfl : p = q := Option.some.inj (hp.symm.trans ((sample_pinSet p s).symm.trans hq))
    obtain ⟨hload, -, hclk⟩ := sample_levels hle hlk hek s
    exact ⟨hload, hclk⟩
  · rw [configure_eq ha]
    intro q hq hlk _ _
    cases hq
    have hne : p.clk.toNat ≠ p.load.toNat := fun h => hlk (BitVec.eq_of_toNat_eq h.symm)
    exact ⟨by simp [State.respond, mapGet_beginOuts], by simp [State.respond, mapGet_beginOuts, hne]⟩

end Sys2Proof
end

section
/-! PROOFS. The two generations and the queries that compare them (10_state R24, 30_encoding R93,
42_queries R168, R169, 70_reset_and_hazards R226). -/

namespace Sys2Proof

@[simp] theorem ChipCount.toStorage_zero (c : ChipCount) : c.toStorage 0 = 0 := by
  simp [ChipCount.toStorage]

namespace Machine

/-- The word that a query answers (42_queries R160 to R167); of no meaning for another operation. -/
def queryWord (s : State) : Instr → ResponseWord
  | .chg => boolWord s.changed
  | .chgi id => boolWord (s.bitChanged id.toNat)
  | .state id => boolWord (s.curBit id.toNat)
  | .last id => boolWord (s.lastBit id.toNat)
  | .pressed id => boolWord (s.bitPressed id.toNat)
  | .released id => boolWord (s.bitReleased id.toNat)
  | .getlast => s.lastVal
  | .getcur => s.curVal
  | _ => noResult

theorem answerBit_eq_next_iff {q : BitQuery} {id : Byte} {s t : State} {f : Nat → Bool} :
    answerBit q id s f = .next t ↔
      decide (id.toNat < s.chips.dataWidth) = true ∧ t = s.respond (boolWord (f id.toNat)) := by
  rw [decide_eq_true_eq]
  constructor
  · exact answerBit_cases
  · rintro ⟨hid, rfl⟩
    exact answerBit_of_lt hid

/-- A query completes exactly when it is well-formed, and writes its response alone (42_queries R168,
R170). -/
theorem exec_query_iff {i : Instr} (hi : isQuery i = true) {s t : State} :
    exec i s = .next t ↔ i.wellFormed s.chips = true ∧ t = s.respond (queryWord s i) := by
  cases i with
  | chgi id => exact answerBit_eq_next_iff
  | state id => exact answerBit_eq_next_iff
  | last id => exact answerBit_eq_next_iff
  | pressed id => exact answerBit_eq_next_iff
  | released id => exact answerBit_eq_next_iff
  | chg => simp [exec, execChg, queryWord, Instr.wellFormed, eq_comm]
  | getlast => simp [exec, execGetlast, queryWord, Instr.wellFormed, eq_comm]
  | getcur => simp [exec, execGetcur, queryWord, Instr.wellFormed, eq_comm]
  | _ => cases hi

/-- A query sees CUR and LAST alone (42_queries R168). -/
theorem queryWord_congr {s s' : State} (hchips : s'.chips = s.chips) (hcur : s'.cur = s.cur)
    (hlast : s'.last = s.last) (i : Instr) : queryWord s' i = queryWord s i := by
  have hc : s'.curVal = s.curVal := by simp only [State.curVal, hchips, hcur]
  have hl : s'.lastVal = s.lastVal := by simp only [State.lastVal, hchips, hlast]
  cases i <;> simp only [queryWord, State.changed, State.bitChanged, State.bitPressed,
    State.bitReleased, State.curBit, State.lastBit, hc, hl]

theorem answers_query_iff {i : Instr} {s : State} {r : ResponseWord} (hi : isQuery i = true)
    (hwf : i.wellFormed s.chips = true) : Answers i s r ↔ r = queryWord s i := by
  simp [Answers, exec_query_iff hi, hwf, eq_comm]

/-- What a host sees of a READ after BEGIN, and that another READ may follow (41_sampling R130). -/
theorem exists_exec_read {s : State} {p : Pins} (hp : s.pinSet = some p) :
    ∃ t, exec .read s = .next t ∧ t.pinSet = some p ∧ t.lastVal = s.curVal ∧
      t.responses = s.responses ++ [t.curVal] := by
  refine ⟨_, exec_read_of_pins hp, (sample_pinSet p s).trans hp, sample_lastVal p s, ?_⟩
  rw [State.respond_responses, sample_responses, ← sample_curVal]
  rfl

/-- After a sample CHG would answer what UPDATE does (41_sampling R136). -/
theorem boolWord_changed_sample (p : Pins) (s : State) :
    boolWord (sample p s).changed = if (sample p s).cur = s.curVal then 0 else 1 := by
  rw [State.changed, sample_lastVal, sample_curVal]
  by_cases hsame : (sample p s).cur = s.curVal
  · simp [boolWord, hsame]
  · simp [boolWord, hsame, Ne.symm hsame]

theorem boolWord_eq_one_iff {b : Bool} : boolWord b = 1 ↔ b = true := by
  cases b <;> simp [boolWord]

theorem answers_chg_iff {s : State} {r : ResponseWord} :
    Answers .chg s r ↔ r = boolWord s.changed :=
  answers_query_iff rfl rfl

section
variable {s : State} {id : Byte} {r : ResponseWord} (hid : id.toNat < s.chips.dataWidth)
include hid

theorem answers_state_iff : Answers (.state id) s r ↔ r = boolWord (s.cur.getLsbD id.toNat) := by
  rw [answers_query_iff (i := .state id) (s := s) rfl (decide_eq_true hid), queryWord, State.curBit_of_lt hid]

theorem answers_last_iff : Answers (.last id) s r ↔ r = boolWord (s.last.getLsbD id.toNat) := by
  rw [answers_query_iff (i := .last id) (s := s) rfl (decide_eq_true hid), queryWord, State.lastBit_of_lt hid]

theorem answers_chgi_iff : Answers (.chgi id) s r ↔
    r = boolWord (s.cur.getLsbD id.toNat != s.last.getLsbD id.toNat) := by
  rw [answers_query_iff (i := .chgi id) (s := s) rfl (decide_eq_true hid), queryWord, State.bitChanged,
    State.curBit_of_lt hid, State.lastBit_of_lt hid]

theorem answers_pressed_iff : Answers (.pressed id) s r ↔
    r = boolWord (s.cur.getLsbD id.toNat && !s.last.getLsbD id.toNat) := by
  rw [answers_query_iff (i := .pressed id) (s := s) rfl (decide_eq_true hid), queryWord, State.bitPressed,
    State.curBit_of_lt hid, State.lastBit_of_lt hid]

theorem answers_released_iff : Answers (.released id) s r ↔
    r = boolWord (!s.cur.getLsbD id.toNat && s.last.getLsbD id.toNat) := by
  rw [answers_query_iff (i := .released id) (s := s) rfl (decide_eq_true hid), queryWord, State.bitReleased,
    State.curBit_of_lt hid, State.lastBit_of_lt hid]

end

section
variable {s : State} (h : s.Inv)
include h

theorem State.Inv.curVal_eq : s.curVal = s.cur := ChipCount.toStorage_of_lt h.cur_lt

theorem State.Inv.lastVal_eq : s.lastVal = s.last := ChipCount.toStorage_of_lt h.last_lt

/-- Of two samples with no bit from `W` up, which differ when CHG says so, a bit of the sample differs. -/
theorem State.Inv.changed_iff : s.changed = true ↔
    ∃ j, j < s.chips.dataWidth ∧ s.cur.getLsbD j ≠ s.last.getLsbD j := by
  rw [State.changed, h.curVal_eq, h.lastVal_eq, bne_iff_ne]
  constructor
  · intro hne
    by_contra! hall
    refine hne (BitVec.eq_of_getLsbD_eq fun j _ => ?_)
    by_cases hj : j < s.chips.dataWidth
    · exact (hall j hj).symm
    · rw [getLsbD_eq_false_of_lt_two_pow h.last_lt (by omega),
        getLsbD_eq_false_of_lt_two_pow h.cur_lt (by omega)]
  · rintro ⟨j, -, hj⟩ heq
    exact hj (by rw [heq])

end

section
variable {s : State} {n : Nat} (h : n < s.chips.dataWidth)
include h

theorem State.getLsbD_pressedSet_of_lt :
    s.pressedSet.getLsbD n = (s.cur.getLsbD n && !s.last.getLsbD n) := by
  have hn : n < 64 := Nat.lt_of_lt_of_le h s.chips.dataWidth_bounds.2
  simp only [State.pressedSet, State.curVal, State.lastVal, ChipCount.getLsbD_toData, BitVec.getLsbD_and,
    BitVec.getLsbD_not, ChipCount.getLsbD_toStorage_of_lt h, h, hn, decide_true, Bool.true_and]

theorem State.getLsbD_releasedSet_of_lt :
    s.releasedSet.getLsbD n = (!s.cur.getLsbD n && s.last.getLsbD n) := by
  have hn : n < 64 := Nat.lt_of_lt_of_le h s.chips.dataWidth_bounds.2
  simp only [State.releasedSet, State.curVal, State.lastVal, ChipCount.getLsbD_toData, BitVec.getLsbD_and,
    BitVec.getLsbD_not, ChipCount.getLsbD_toStorage_of_lt h, h, hn, decide_true, Bool.true_and]

end

end Machine

open Machine

/-- Settles O30: `exec_query_iff`, whose response `queryWord_congr` says to depend on the two samples. -/
theorem queriesArePureAndSeeOnlyTheSamples : Obligations.QueriesArePureAndSeeOnlyTheSamples := by
  intro i s s' t hi hchips hcur hlast h
  obtain ⟨hwf, rfl⟩ := (exec_query_iff hi).1 h
  refine ⟨queryWord s i, rfl, (exec_query_iff hi).2 ⟨by rwa [hchips], ?_⟩⟩
  rw [queryWord_congr hchips hcur hlast]
  rfl

/-- Settles O31: the first asking writes neither the chip count nor CUR nor LAST, so the second sees what the
first did. -/
theorem queriesAreIdempotent : Obligations.QueriesAreIdempotent := by
  intro i s t hi h
  obtain ⟨-, rfl⟩ := (exec_query_iff hi).1 h
  obtain ⟨r, ht, hagain⟩ := queriesArePureAndSeeOnlyTheSamples i s
    (s.respond (queryWord s i)) _ hi rfl rfl rfl h
  refine ⟨_, r, hagain, ?_, ?_⟩
  · rw [ht]
  · simp [ht]

/-- Settles O32: inside the sample each answer is its Boolean of the two bits (`answers_state_iff` and its
like), so the table is their four values; CHG sees a bit differ exactly when one does below `W`, since the
invariant leaves no other. -/
theorem edgeLaws : Obligations.EdgeLaws := by
  intro s h
  have hchg : Answers .chg s 1 ↔ s.changed = true := by
    rw [answers_chg_iff, eq_comm, boolWord_eq_one_iff]
  refine ⟨fun id hid => ?_, ?_, ?_, fun id hid => ⟨?_, ?_⟩, fun j hj => ?_⟩
  · simp only [answers_state_iff hid, answers_last_iff hid, answers_chgi_iff hid,
      answers_pressed_iff hid, answers_released_iff hid]
    cases s.last.getLsbD id.toNat <;> cases s.cur.getLsbD id.toNat <;> decide
  · rw [hchg, h.changed_iff]
    constructor
    · rintro ⟨j, hj, hne⟩
      have hw := s.chips.dataWidth_bounds
      have hid : (BitVec.ofNat 8 j).toNat = j := by
        rw [BitVec.toNat_ofNat]
        omega
      refine ⟨BitVec.ofNat 8 j, hid.symm ▸ hj, (answers_chgi_iff (hid.symm ▸ hj)).2 ?_⟩
      rw [eq_comm, boolWord_eq_one_iff, hid, bne_iff_ne]
      exact hne
    · rintro ⟨id, hid, hans⟩
      rw [answers_chgi_iff hid, eq_comm, boolWord_eq_one_iff, bne_iff_ne] at hans
      exact ⟨id.toNat, hid, hans⟩
  · rw [hchg, State.changed, h.curVal_eq, h.lastVal_eq, bne_iff_ne]
    exact not_congr (eq_comm.trans BitVec.xor_eq_zero_iff.symm)
  · rw [answers_pressed_iff hid, eq_comm (a := 1), boolWord_eq_one_iff,
      State.getLsbD_pressedSet_of_lt hid]
  · rw [answers_released_iff hid, eq_comm (a := 1), boolWord_eq_one_iff,
      State.getLsbD_releasedSet_of_lt hid]
  · simp [State.pressedSet, State.releasedSet, ChipCount.getLsbD_toData, show ¬ j < s.chips.dataWidth by
      omega]

/-- Settles O18: the pins outlast the first READ, and each READ copies CUR to LAST first. -/
theorem twoReadsKeepTwoGenerations : Obligations.TwoReadsKeepTwoGenerations := by
  intro s p hp
  obtain ⟨t, ht, hpt, htlast, htresp⟩ := exists_exec_read hp
  obtain ⟨u, hu, -, hulast, huresp⟩ := exists_exec_read hpt
  exact ⟨t, u, ht, hu, htlast, hulast, by rw [huresp, htresp, List.append_assoc]; rfl⟩

/-- Settles O19: READ's state holds the CUR before as LAST, so CHG there compares what UPDATE does. -/
theorem updateIsReadThenCompare : Obligations.UpdateIsReadThenCompare := by
  intro s p hp
  refine ⟨_, _, _, exec_read_of_pins hp, rfl, exec_update_of_pins hp, boolWord (sample p s).changed,
    ?_, ?_⟩
  · rw [← sample_curVal p s, ← sample_responses p s]
    exact List.append_assoc _ [_] [_]
  · rw [boolWord_changed_sample, ← sample_responses p s]
    rfl

/-- Settles O21: after the READ every bit of LAST is 0, which leaves CUR's own bit to a rising edge, nothing
to a falling one, and the comparison of the sample with 0 to CHG, as to UPDATE. -/
theorem firstSampleIsComparedWithZero : Obligations.FirstSampleIsComparedWithZero := by
  intro s p hp hcur
  have hzero : s.curVal = 0 := by rw [State.curVal, hcur, ChipCount.toStorage_zero]
  refine ⟨_, exec_read_of_pins hp, fun id hid => ?_, ?_, ?_⟩
  · replace hid : id.toNat < ((sample p s).respond (sample p s).cur).chips.dataWidth := by
      simpa using hid
    have hbit : (sample p s).last.getLsbD id.toNat = false := by simp [hzero]
    rw [answers_pressed_iff hid, answers_released_iff hid, State.respond_last, hbit, Bool.not_false,
      Bool.and_true, Bool.and_false]
    exact ⟨(boolWord_eq_ite Iff.rfl).symm, rfl⟩
  · have hchg := boolWord_changed_sample p s
    rw [hzero] at hchg
    exact answers_chg_iff.2 hchg.symm
  · exact ⟨_, exec_update_of_pins hp, by rw [hzero, State.respond_responses, sample_responses]; rfl⟩

end Sys2Proof
end

section
/-! PROOFS. What the environment's answers make of a READ: the oracle and the reference chain
(41_sampling R134, R139, 60_exceptions R206 to R211, 70_reset_and_hazards R230). -/

namespace Sys2Proof

namespace Machine

/-- The value step 5 stores is the `ACC` of the shift loop (41_sampling R130). -/
theorem sample_cur_eq (p : Pins) (s : State) : (sample p s).cur = s.chips.toStorage
    (shiftLoop p s.chips.dataWidth 0 (loadPhase p (s.setLast s.curVal))).1 :=
  congrArg (ChipCount.toStorage · _) (sample_chips p s)

theorem Sampled.toNat_cur {p : Pins} {ls : List Level} {s t : State} (h : Sampled p ls s t)
    (hlen : ls.length ≤ 64) : t.cur.toNat = sampleNat ls := by
  obtain ⟨rs, o, e, a, d, rfl, -⟩ := h
  exact toNat_ofNat_sampleNat hlen

/-- The events of an iteration show the level it read. -/
theorem flatMap_bitEvents_injective (p : Pins) (pw : BitVec 8) :
    Function.Injective fun ls : List Level => ls.flatMap (bitEvents p pw) := by
  intro ls
  induction ls with
  | nil =>
    intro ls' h
    cases ls' with
    | nil => rfl
    | cons l' ls' => simp [bitEvents] at h
  | cons l ls ih =>
    intro ls' h
    cases ls' with
    | nil => simp [bitEvents] at h
    | cons l' ls' =>
      simp only [List.flatMap_cons, bitEvents, List.cons_append, List.nil_append, List.cons.injEq,
        Event.pinRead.injEq, true_and] at h
      obtain ⟨rfl, h⟩ := h
      rw [ih h]

/-- A sample whose reads are all draws, of which the first `W` are given, reads exactly them: `sample_spec`
with its levels known by the trace that `shiftLoop_drawing` states. -/
theorem sample_drawing {p : Pins} {s : State} {ls rest : List Level}
    (hd : Drawing p (loadPhase p (s.setLast s.curVal)).env) (ha : s.answers = ls ++ rest)
    (hlen : ls.length = s.chips.dataWidth) :
    Sampled p ls s (sample p s) ∧ (sample p s).answers = rest ∧ (sample p s).draws = s.draws := by
  have hw := s.chips.dataWidth_bounds
  obtain ⟨r, o, e, hloop, -⟩ := shiftLoop_drawing p ls rest (by omega) 0
    (loadPhase p (s.setLast s.curVal)) hd (by rw [loadPhase_spec]; exact ha)
  have hsample : sample p s =
      (shiftLoop p ls.length 0 (loadPhase p (s.setLast s.curVal))).2.setCur r := by
    rw [sample, ← hlen, hloop]
  rw [hloop, loadPhase_spec] at hsample
  obtain ⟨ls', hlen', hsampled⟩ := exists_sampled_sample p s
  have htrace := hsampled.trace_eq
  rw [hsample] at htrace
  have hls : ls = ls' := flatMap_bitEvents_injective p s.pw (by
    simpa [sampleEvents, State.setCur, State.setLast] using htrace)
  subst hls
  refine ⟨hsampled, ?_, ?_⟩ <;> rw [hsample] <;> rfl

/-- The three driven pins of pairwise different pins differ (60_exceptions R206). -/
theorem Pins.driven_ne_of_nodup {p : Pins} (h : [p.load, p.clken, p.data, p.clk].Nodup) :
    p.load ≠ p.clken ∧ p.load ≠ p.clk ∧ p.clken ≠ p.clk := by
  simp only [List.nodup_cons, List.mem_cons, not_or] at h
  obtain ⟨⟨hle, -, hlk, -⟩, ⟨-, hek, -⟩, -⟩ := h
  exact ⟨hle, hlk, hek⟩

/-- SimChain after a load phase (60_exceptions R207, R210). -/
def SimChain.loaded (c : ChipCount) (pw : BitVec 8) (m : SimChain) : SimChain :=
  { m with shift := c.toData m.inputs, garbled := decide (pw.toNat < m.pwMin) }

/-- SimChain after a clock pulse that makes it shift or not (60_exceptions R209, R210). -/
def SimChain.pulsed (c : ChipCount) (shifts : Bool) (pw : BitVec 8) (m : SimChain) : SimChain :=
  { m with
    shift := if shifts then (m.shiftOnce c).shift else m.shift
    garbled := m.garbled || decide (pw.toNat < m.pwMin) }

/-- The load phase loads SimChain and garbles it when its Sleep is too short; its other writes are no load
pulse and no clock edge. -/
theorem loadPhase_env_simChain {p : Pins} {s : State} {m : SimChain} (henv : s.env = .simChain m)
    (hle : p.load ≠ p.clken) (hlk : p.load ≠ p.clk) (hek : p.clken ≠ p.clk) :
    (loadPhase p s).env = .simChain (m.loaded s.chips s.pw) := by
  by_cases hpw : s.pw.toNat < m.pwMin <;>
    simp [loadPhase, henv, Environment.react, SimChain.react, SimChain.loadPulse, SimChain.loaded,
      hle.symm, hlk, hek, hpw]

/-- A clock pulse shifts SimChain when that is permitted and garbles it when its Sleep is too short. -/
theorem clockPulse_env_simChain {p : Pins} {s : State} {m : SimChain} (henv : s.env = .simChain m)
    (hlk : p.load ≠ p.clk) :
    (clockPulse p s).env = .simChain (m.pulsed s.chips (shiftPermitted p s.outs) s.pw) := by
  cases hshift : shiftPermitted p s.outs <;> by_cases hpw : s.pw.toNat < m.pwMin <;>
    simp [clockPulse, henv, Environment.react, SimChain.react, SimChain.pulsed, SimChain.shiftOnce,
      hlk.symm, hshift, hpw]

/-- A shift moves every bit of `Q` but the last one up by one place (60_exceptions R209). -/
theorem SimChain.getLsbD_shiftOnce_succ {c : ChipCount} {j : Nat} (hj : j + 1 < c.dataWidth)
    (m : SimChain) : (m.shiftOnce c).shift.getLsbD (j + 1) = m.shift.getLsbD j := by
  have hw := c.dataWidth_bounds
  simp only [SimChain.shiftOnce, ChipCount.getLsbD_toData, hj, BitVec.getLsbD_or,
    BitVec.getLsbD_shiftLeft, BitVec.getLsbD_setWidth, BitVec.getLsbD_ofBool]
  simp [show j + 1 < 64 by omega]

/-- The level that stands for a bit is read as that bit (20_memory R62). -/
@[simp] theorem lvl_levelOf (b : Bool) : lvl (levelOf b) = b := by
  cases b <;> rfl

@[simp] theorem pinRead_chips (p : Pins) (s : State) : (s.pinRead p).2.chips = s.chips := by
  rw [s.pinRead_snd p]

@[simp] theorem loadPhase_chips (p : Pins) (s : State) : (loadPhase p s).chips = s.chips := by
  rw [loadPhase_spec]

@[simp] theorem loadPhase_pw (p : Pins) (s : State) : (loadPhase p s).pw = s.pw := by
  rw [loadPhase_spec]

@[simp] theorem clockPulse_chips (p : Pins) (s : State) : (clockPulse p s).chips = s.chips := by
  rw [clockPulse_spec]

@[simp] theorem clockPulse_pw (p : Pins) (s : State) : (clockPulse p s).pw = s.pw := by
  rw [clockPulse_spec]

/-- Before an iteration that leaves `n - 1` more, SimChain `m` holds the bits of `v` below `n` at its upper
end, its data line is clear, and the next clock pulse will shift it (60_exceptions R207 to R211). -/
structure Presenting (v : Bitfield) (p : Pins) (n : Nat) (m : SimChain) (s : State) : Prop where
  env : s.env = .simChain m
  clear : m.garbled = false
  slow : m.pwMin ≤ s.pw.toNat
  clk_low : mapGet p.clk.toNat s.outs = some .low
  clken_low : mapGet p.clken.toNat s.outs = some .low
  bits : ∀ j, j < n → m.shift.getLsbD (s.chips.dataWidth - n + j) = v.getLsbD j

namespace Presenting

section
variable {v : Bitfield} {p : Pins} {n : Nat} {m : SimChain} {s : State}
variable (h : Presenting v p (n + 1) m s) (hn : n + 1 ≤ s.chips.dataWidth)
include h hn

/-- The data line shows the highest bit left (60_exceptions R208). -/
theorem dataLevel : s.dataLevel = (levelOf (v.getLsbD n), s) := by
  have htop := h.bits n (Nat.lt_succ_self n)
  rw [show s.chips.dataWidth - (n + 1) + n = s.chips.dataWidth - 1 by omega] at htop
  simp [State.dataLevel, h.env, h.clear, SimChain.dataOut, htop]

theorem pinRead : Presenting v p (n + 1) m (s.pinRead p).2 := by
  have hread : (s.pinRead p).2 = s.emit p (.pinRead p.data (levelOf (v.getLsbD n))) := by
    rw [State.pinRead, h.dataLevel hn]
  rw [hread]
  exact { h with env := by rw [State.emit_env, h.env]; rfl }

/-- A clock pulse moves the next bit up to the data line (60_exceptions R209). -/
theorem clockPulse (hlk : p.load ≠ p.clk) (hek : p.clken ≠ p.clk) :
    Presenting v p n (m.shiftOnce s.chips) (clockPulse p s) := by
  have hpermitted : shiftPermitted p s.outs = true := by
    simp [shiftPermitted, h.clk_low, h.clken_low]
  have hpulsed : m.pulsed s.chips true s.pw = m.shiftOnce s.chips := by
    simp [SimChain.pulsed, SimChain.shiftOnce, Nat.not_lt.2 h.slow]
  refine ⟨?_, h.clear, ?_, ?_, ?_, fun j hj => ?_⟩
  · rw [clockPulse_env_simChain h.env hlk, hpermitted, hpulsed]
  · rw [clockPulse_pw]
    exact h.slow
  · rw [clockPulse_outs, mapGet_mapPut_same]
  · rw [ne_eq, ← BitVec.toNat_inj] at hek
    rw [clockPulse_outs, mapGet_mapPut_other _ _ hek, mapGet_mapPut_other _ _ hek, h.clken_low]
  · rw [clockPulse_chips, show s.chips.dataWidth - n + j = s.chips.dataWidth - (n + 1) + j + 1 by omega,
      SimChain.getLsbD_shiftOnce_succ (by omega), h.bits j (by omega)]

end

/-- The load phase presents the parallel inputs whole (60_exceptions R207). -/
theorem loadPhase {p : Pins} {m : SimChain} {s : State} (henv : s.env = .simChain m)
    (hle : p.load ≠ p.clken) (hlk : p.load ≠ p.clk) (hek : p.clken ≠ p.clk)
    (hpw : m.pwMin ≤ s.pw.toNat) (hclk : mapGet p.clk.toNat s.outs = some .low) :
    Presenting m.inputs p s.chips.dataWidth (m.loaded s.chips s.pw) (loadPhase p s) := by
  refine ⟨loadPhase_env_simChain henv hle hlk hek, decide_eq_false (Nat.not_lt.2 hpw), ?_, ?_, ?_,
    fun j hj => ?_⟩
  · rw [loadPhase_pw]
    exact hpw
  · rw [ne_eq, ← BitVec.toNat_inj] at hlk hek
    simp [loadPhase_outs, mapGet_mapPut, Ne.symm hlk, Ne.symm hek, hclk]
  · simp [loadPhase_outs]
  · rw [loadPhase_chips, Nat.sub_self, Nat.zero_add, SimChain.loaded, ChipCount.getLsbD_toData,
      decide_eq_true hj, Bool.true_and]

/-- The shift loop reads what is presented, bit by bit from the highest. -/
theorem getLsbD_shiftLoop {v : Bitfield} {p : Pins} (hlk : p.load ≠ p.clk) (hek : p.clken ≠ p.clk)
    (n : Nat) : ∀ (acc : Bitfield) {m : SimChain} {s : State}, Presenting v p n m s →
      n ≤ s.chips.dataWidth → ∀ j, (shiftLoop p n acc s).1.getLsbD j =
        (acc.getLsbD j || (decide (j < n) && v.getLsbD j)) := by
  induction n with
  | zero => intro acc m s _ _ j; simp [shiftLoop]
  | succ n ih =>
    intro acc m s h hn j
    have hw := s.chips.dataWidth_bounds
    have hnext := (h.pinRead hn).clockPulse (by simpa using hn) hlk hek
    rw [shiftLoop, ih _ hnext (by simp; omega), State.pinRead_fst, h.dataLevel hn, lvl_levelOf,
      getLsbD_insertBit acc (by omega)]
    rcases Nat.lt_trichotomy j n with hj | rfl | hj
    · simp [hj, hj.ne, Nat.lt_succ_of_lt hj]
    · simp
    · simp [hj.ne', Nat.not_lt.2 hj.le, show ¬ j < n + 1 by omega]

end Presenting

/-- Two chains that may differ in `SER_IN` and in what the shift register holds below its upper `n` bits. -/
structure SimChain.Agree (c : ChipCount) (n : Nat) (m m' : SimChain) : Prop where
  inputs_eq : m'.inputs = m.inputs
  pwMin_eq : m'.pwMin = m.pwMin
  garbled_eq : m'.garbled = m.garbled
  bits : ∀ j, c.dataWidth - n ≤ j → j < c.dataWidth → m'.shift.getLsbD j = m.shift.getLsbD j

namespace SimChain.Agree

variable {c : ChipCount} {n : Nat} {m m' : SimChain}

/-- A load pulse writes all of the shift register (60_exceptions R207). -/
theorem loaded (h : m.Agree c n m') (pw : BitVec 8) :
    (m.loaded c pw).Agree c c.dataWidth (m'.loaded c pw) where
  inputs_eq := h.inputs_eq
  pwMin_eq := h.pwMin_eq
  garbled_eq := by simp only [SimChain.loaded, h.pwMin_eq]
  bits := fun _ _ _ => by simp only [SimChain.loaded, h.inputs_eq]

/-- A clock pulse shifts both chains or neither, and what it shifts in is not among the upper bits
(60_exceptions R209). -/
theorem pulsed (h : m.Agree c (n + 1) m') (hn : n + 1 ≤ c.dataWidth) (shifts : Bool) (pw : BitVec 8) :
    (m.pulsed c shifts pw).Agree c n (m'.pulsed c shifts pw) where
  inputs_eq := h.inputs_eq
  pwMin_eq := h.pwMin_eq
  garbled_eq := by simp only [SimChain.pulsed, h.pwMin_eq, h.garbled_eq]
  bits := fun j hj hjw => by
    cases shifts with
    | false => exact h.bits j (by omega) hjw
    | true =>
      obtain ⟨k, rfl⟩ : ∃ k, j = k + 1 := ⟨j - 1, by omega⟩
      have hk := h.bits k (by omega) (by omega)
      simpa only [SimChain.pulsed, if_true, SimChain.getLsbD_shiftOnce_succ hjw] using hk

/-- The data line shows an upper bit (60_exceptions R208). -/
theorem dataOut_eq (h : m.Agree c (n + 1) m') : m'.dataOut c = m.dataOut c := by
  have hw := c.dataWidth_bounds
  rw [SimChain.dataOut, h.bits _ (by omega) (by omega), SimChain.dataOut]

end SimChain.Agree

/-- The same state before another environment. -/
def State.setEnv (e : Environment) (s : State) : State := { s with env := e }

/-- Two states that differ in SimChain alone, and there in no upper bit of `n`. -/
def Twins (n : Nat) (s s' : State) : Prop :=
  ∃ m m' : SimChain, s.env = .simChain m ∧ s' = s.setEnv (.simChain m') ∧ m.Agree s.chips n m'

theorem State.draw_setEnv (e : Environment) (s : State) :
    (s.setEnv e).draw = (s.draw.1, s.draw.2.setEnv e) := by
  simp only [State.draw, State.setEnv]
  split <;> rfl

theorem State.emit_setEnv (p : Pins) (ev : Event) (e : Environment) (s : State) :
    (s.setEnv e).emit p ev = (s.emit p ev).setEnv (e.react s.chips p s.outs ev) := rfl

@[simp] theorem State.setEnv_pw (e : Environment) (s : State) : (s.setEnv e).pw = s.pw := rfl

/-- What a load phase does to the rest of the state does not depend on the environment. -/
theorem loadPhase_setEnv (p : Pins) (e : Environment) (s : State) :
    loadPhase p (s.setEnv e) = (loadPhase p s).setEnv (loadPhase p (s.setEnv e)).env := by
  simp only [loadPhase, State.emit_setEnv, State.setEnv_pw]
  rfl

/-- Nor does what a clock pulse does to it. -/
theorem clockPulse_setEnv (p : Pins) (e : Environment) (s : State) :
    clockPulse p (s.setEnv e) = (clockPulse p s).setEnv (clockPulse p (s.setEnv e)).env := by
  simp only [clockPulse, State.emit_setEnv, State.setEnv_pw]
  rfl

namespace Twins

section
variable {n : Nat} {s s' : State}

/-- Both states answer a read alike, by the data line or by the same draw. -/
theorem dataLevel (h : Twins (n + 1) s s') :
    s'.dataLevel = (s.dataLevel.1, s.dataLevel.2.setEnv s'.env) := by
  obtain ⟨m, m', henv, rfl, hagree⟩ := h
  have henv' : (s.setEnv (.simChain m')).env = .simChain m' := rfl
  have hchips : (s.setEnv (.simChain m')).chips = s.chips := rfl
  simp only [State.dataLevel, henv, henv', hagree.garbled_eq, hchips, hagree.dataOut_eq,
    State.draw_setEnv]
  split <;> rfl

theorem pinRead (h : Twins (n + 1) s s') (p : Pins) :
    (s'.pinRead p).1 = (s.pinRead p).1 ∧ Twins (n + 1) (s.pinRead p).2 (s'.pinRead p).2 := by
  have hlevel := h.dataLevel
  obtain ⟨m, m', henv, rfl, hagree⟩ := h
  refine ⟨by rw [State.pinRead_fst, hlevel, State.pinRead_fst],
    m, m', (s.pinRead_env p).trans henv, ?_, by rwa [pinRead_chips]⟩
  rw [State.pinRead, hlevel]
  rfl

theorem clockPulse (h : Twins (n + 1) s s') {p : Pins} (hlk : p.load ≠ p.clk)
    (hn : n + 1 ≤ s.chips.dataWidth) : Twins n (clockPulse p s) (clockPulse p s') := by
  obtain ⟨m, m', henv, rfl, hagree⟩ := h
  have henv' : (Machine.clockPulse p (s.setEnv (.simChain m'))).env =
      .simChain (m'.pulsed s.chips (shiftPermitted p s.outs) s.pw) := clockPulse_env_simChain rfl hlk
  refine ⟨_, _, clockPulse_env_simChain henv hlk, by rw [clockPulse_setEnv, henv'], ?_⟩
  rw [clockPulse_chips]
  exact hagree.pulsed hn _ _

theorem loadPhase (h : Twins n s s') {p : Pins} (hle : p.load ≠ p.clken) (hlk : p.load ≠ p.clk)
    (hek : p.clken ≠ p.clk) : Twins s.chips.dataWidth (loadPhase p s) (loadPhase p s') := by
  obtain ⟨m, m', henv, rfl, hagree⟩ := h
  have henv' : (Machine.loadPhase p (s.setEnv (.simChain m'))).env =
      .simChain (m'.loaded s.chips s.pw) := loadPhase_env_simChain rfl hle hlk hek
  refine ⟨_, _, loadPhase_env_simChain henv hle hlk hek, by rw [loadPhase_setEnv, henv'], ?_⟩
  rw [loadPhase_chips]
  exact hagree.loaded _

theorem setCur (h : Twins n s s') (v : Bitfield) : Twins n (s.setCur v) (s'.setCur v) := by
  obtain ⟨m, m', henv, rfl, hagree⟩ := h
  exact ⟨m, m', henv, rfl, hagree⟩

theorem setLast_curVal (h : Twins n s s') : Twins n (s.setLast s.curVal) (s'.setLast s'.curVal) := by
  obtain ⟨m, m', henv, rfl, hagree⟩ := h
  exact ⟨m, m', henv, rfl, hagree⟩

theorem chips_eq (h : Twins n s s') : s'.chips = s.chips := by
  obtain ⟨m, m', -, rfl, -⟩ := h
  rfl

end

/-- Each iteration reads an upper bit, and leaves one upper bit less. -/
theorem shiftLoop {p : Pins} (hlk : p.load ≠ p.clk) (n : Nat) : ∀ (acc : Bitfield) {s s' : State},
    Twins n s s' → n ≤ s.chips.dataWidth →
    (shiftLoop p n acc s').1 = (shiftLoop p n acc s).1 ∧
      Twins 0 (shiftLoop p n acc s).2 (shiftLoop p n acc s').2 := by
  induction n with
  | zero => exact fun _ _ _ h _ => ⟨rfl, h⟩
  | succ n ih =>
    intro acc s s' h hn
    obtain ⟨hlevel, hread⟩ := h.pinRead p
    simp only [Machine.shiftLoop, hlevel]
    exact ih _ (hread.clockPulse hlk (by simpa using hn)) (by simp; omega)

theorem sample {p : Pins} (hle : p.load ≠ p.clken) (hlk : p.load ≠ p.clk) (hek : p.clken ≠ p.clk)
    {n : Nat} {s s' : State} (h : Twins n s s') : Twins 0 (sample p s) (sample p s') := by
  obtain ⟨hacc, hloop⟩ := shiftLoop hlk s.chips.dataWidth 0 (h.setLast_curVal.loadPhase hle hlk hek)
    (by simp)
  simp only [Machine.sample, h.chips_eq, hacc]
  exact hloop.setCur _

end Twins

end Machine

open Machine

/-- Settles O11: under the oracle every read is a draw. -/
theorem readPlacesFirstBitHighest : Obligations.ReadPlacesFirstBitHighest := by
  intro s p ls rest hp henv ha hlen
  have hw := s.chips.dataWidth_bounds
  have hd : Drawing p (loadPhase p (s.setLast s.curVal)).env :=
    .inl ((loadPhase_keepsInputs p (s.setLast s.curVal)).1 henv)
  obtain ⟨hsampled, hanswers, hdraws⟩ := sample_drawing hd ha hlen
  have hcur := hsampled.toNat_cur (by omega)
  have hbit (j : Nat) : (sample p s).cur.getLsbD j =
      (decide (j < ls.length) && lvl (ls.getD (ls.length - 1 - j) .low)) := by
    rw [← testBit_sampleNat, ← hcur]
    rfl
  refine ⟨_, exec_read_of_pins hp, hsampled.respond _, hanswers, hdraws, hcur, fun i hi => ?_,
    fun j hj => ?_⟩
  · rw [State.respond_cur, hbit, ← hlen, show ls.length - 1 - (ls.length - 1 - i) = i by omega]
    simp
    omega
  · rw [State.respond_cur, hbit, decide_eq_false (by omega), Bool.false_and]

/-- Settles O50: the load phase presents the inputs, and the shift loop reads what is presented. -/
theorem simChainReadReturnsTheInputs : Obligations.SimChainReadReturnsTheInputs := by
  intro s p m hp henv hpins hpw hclk hlt
  obtain ⟨hle, hlk, hek⟩ := Pins.driven_ne_of_nodup hpins
  have hload := Presenting.loadPhase (s := s.setLast s.curVal) henv hle hlk hek hpw hclk
  rw [State.setLast_chips] at hload
  have hacc : (shiftLoop p s.chips.dataWidth 0 (loadPhase p (s.setLast s.curVal))).1 = m.inputs := by
    apply BitVec.eq_of_getLsbD_eq
    intro j _
    rw [hload.getLsbD_shiftLoop hlk hek _ 0 (by simp) j]
    by_cases hj : j < s.chips.dataWidth
    · simp [hj]
    · simp [hj, getLsbD_eq_false_of_lt_two_pow hlt (Nat.le_of_not_lt hj)]
  have hcur : (sample p s).cur = m.inputs := by
    rw [sample_cur_eq, hacc, ChipCount.toStorage_of_lt hlt]
  exact ⟨_, exec_read_of_pins hp, hcur, by rw [State.respond_responses, sample_responses, hcur]⟩

/-- Settles O51: the load phase's own Sleep garbles SimChain after its load pulse, so every read is a
draw. -/
theorem garbledReadIsAnyValue : Obligations.GarbledReadIsAnyValue := by
  intro s p m ls rest hp henv hpins hpw ha hlen
  have hw := s.chips.dataWidth_bounds
  obtain ⟨hle, hlk, hek⟩ := Pins.driven_ne_of_nodup hpins
  have hload := loadPhase_env_simChain (s := s.setLast s.curVal) henv hle hlk hek
  have hd : Drawing p (loadPhase p (s.setLast s.curVal)).env :=
    .inr ⟨hlk, _, hload, decide_eq_true hpw⟩
  obtain ⟨hsampled, hanswers, -⟩ := sample_drawing hd ha hlen
  exact ⟨_, exec_read_of_pins hp, hsampled.respond _, hanswers, hsampled.toNat_cur (by omega)⟩

/-- Settles O52: the two READs begin in twin states, whose samples are twins, and twins differ in SimChain
alone. -/
theorem serialInputIsNeverRead : Obligations.SerialInputIsNeverRead := by
  intro s t t' p m q b hp henv hpins h h'
  obtain ⟨hle, hlk, hek⟩ := Pins.driven_ne_of_nodup hpins
  have hp' : { s with env := .simChain { m with serIn := b, shift := q } }.pinSet = some p := hp
  obtain rfl := Host.Outcome.next.inj (h.symm.trans (exec_read_of_pins hp))
  obtain rfl := Host.Outcome.next.inj (h'.symm.trans (exec_read_of_pins hp'))
  have htwins : Twins 0 s { s with env := .simChain { m with serIn := b, shift := q } } :=
    ⟨m, _, henv, rfl, rfl, rfl, rfl, fun j _ _ => by omega⟩
  obtain ⟨n, n', -, hsample, -⟩ := htwins.sample hle hlk hek
  rw [hsample]
  exact ⟨rfl, rfl, rfl, rfl⟩

end Sys2Proof
end

section
/-! PROOFS. The command port, and an operation in flight (10_state R34, R35, 41_sampling R133, R135,
60_exceptions R198). -/

namespace Sys2Proof

namespace Machine

theorem issue_of_op {w : CommandWord} {i : Instr} (h : decode w = .op i) (s : State) :
    issue w s = exec i s := by
  simp [issue, h]

theorem post_of_sampleOp_none {w : CommandWord} {i : Instr} (h : decode w = .op i)
    (hop : sampleOp i = none) (s : State) : post w s = exec i s := by
  simp [post, h, hop]

theorem post_of_sampleOp {w : CommandWord} {i : Instr} {op : SampleOp} (h : decode w = .op i)
    (hop : sampleOp i = some op) (s : State) : post w s = startSample op s := by
  simp [post, h, hop]

theorem startSample_of_pins {s : State} (h : s.pinSet.isSome = true) (op : SampleOp) :
    startSample op s = .next ((s.setLast s.curVal).setEngine (.busy ⟨op, .clkenHigh, 0, 0⟩)) := by
  obtain ⟨p, hp⟩ := Option.isSome_iff_exists.1 h
  simp [startSample, hp]

theorem startSample_of_not_begun {s : State} (h : s.begun = false) (op : SampleOp) :
    startSample op s = .fault (.notBegun op) := by
  simp [startSample, State.pinSet_of_not_begun h, raise]

theorem step_of_command {s : State} {w : CommandWord} {rest : List HostAction} (he : s.engine = .idle)
    (hin : s.inbox = .command w :: rest) : step s = issue w (s.setInbox rest) := by
  rw [step_of_idle he]
  simp only [stepIdle, hin]

theorem step_of_post {s : State} {w : CommandWord} {rest : List HostAction} (he : s.engine = .idle)
    (hin : s.inbox = .post w :: rest) : step s = post w (s.setInbox rest) := by
  rw [step_of_idle he]
  simp only [stepIdle, hin]

/-- A posted sampling operation after BEGIN begins: step 1 and 2 (41_sampling R130). -/
theorem step_of_posted_sample {s : State} {w : CommandWord} {i : Instr} {op : SampleOp}
    {rest : List HostAction} (he : s.engine = .idle) (hin : s.inbox = .post w :: rest)
    (hw : decode w = .op i) (hop : sampleOp i = some op) (hp : s.pinSet.isSome = true) :
    step s = .next (((s.setInbox rest).setLast s.curVal).setEngine (.busy ⟨op, .clkenHigh, 0, 0⟩)) := by
  rw [step_of_post he hin, post_of_sampleOp hw hop]
  exact startSample_of_pins (s := s.setInbox rest) hp op

theorem advanceSample_of_pins {s : State} {p : Pins} (hp : s.pinSet = some p) (f : InFlight) :
    advanceSample f s = .next (runPosition p f s) := by
  simp [advanceSample, hp]

theorem exec_eq_runSample {i : Instr} {op : SampleOp} (hop : sampleOp i = some op) (s : State) :
    exec i s = runSample op s := by
  obtain ⟨rfl, rfl⟩ | ⟨rfl, rfl⟩ := sampleOp_eq_some hop <;> rfl

theorem State.setInbox_of_eq {s : State} {l : List HostAction} (h : s.inbox = l) :
    s.setInbox l = s := by
  subst h
  rfl

/-- What is left of the host's list by a step of an operation in flight: a wait is taken off. -/
def afterWait : List HostAction → List HostAction
  | .wait :: rest => rest
  | l => l

theorem afterWait_of_ne_wait {l : List HostAction} (h : ∀ rest, l ≠ .wait :: rest) :
    afterWait l = l := by
  unfold afterWait
  split
  · exact absurd rfl (h _)
  · rfl

/-- Nothing is issued to an engine with an operation in flight, and no reset comes. -/
theorem step_of_busy_of_quiet {s : State} {f : InFlight} {p : Pins} (he : s.engine = .busy f)
    (hp : s.pinSet = some p)
    (hin : s.inbox = [] ∨ (∃ rest, s.inbox = .wait :: rest) ∨ ∃ v rest, s.inbox = .inputs v :: rest) :
    step s = .next (runPosition p f (s.setInbox (afterWait s.inbox))) := by
  have hp' : (s.setInbox (afterWait s.inbox)).pinSet = some p := hp
  rw [step_of_busy he, ← advanceSample_of_pins hp']
  obtain hin | ⟨rest, hin⟩ | ⟨v, rest, hin⟩ := hin
  · simp only [stepBusy, hin, afterWait, State.setInbox_of_eq hin]
  · simp only [stepBusy, hin, afterWait]
  · simp only [stepBusy, hin, afterWait, State.setInbox_of_eq hin]

/-- The host has nothing more to do, and BEGIN has set pins `p`: the engine is left to itself. -/
structure Unattended (p : Pins) (s : State) : Prop where
  pins : s.pinSet = some p
  inbox : s.inbox = []

theorem Unattended.emit {p : Pins} {s : State} (h : Unattended p s) (e : Event) :
    Unattended p (s.emit p e) := ⟨h.pins, h.inbox⟩

theorem Unattended.pinRead {p : Pins} {s : State} (h : Unattended p s) :
    Unattended p (s.pinRead p).2 := by
  rw [s.pinRead_snd p]
  exact ⟨h.pins, h.inbox⟩

theorem Unattended.loadPhase {p : Pins} {s : State} (h : Unattended p s) :
    Unattended p (loadPhase p s) := by
  rw [loadPhase_spec]
  exact ⟨h.pins, h.inbox⟩

theorem Unattended.clockPulse {p : Pins} {s : State} (h : Unattended p s) :
    Unattended p (clockPulse p s) := by
  rw [clockPulse_spec]
  exact ⟨h.pins, h.inbox⟩

theorem Unattended.shiftLoop {p : Pins} (n : Nat) : ∀ (acc : Bitfield) {s : State}, Unattended p s →
    Unattended p (shiftLoop p n acc s).2 := by
  induction n with
  | zero => exact fun _ _ h => h
  | succ n ih => exact fun _ _ h => ih _ h.pinRead.clockPulse

/-- A read of the data pin does not see the engine. -/
theorem pinRead_setEngine (p : Pins) (e : Engine) (s : State) :
    (s.setEngine e).pinRead p = ((s.pinRead p).1, (s.pinRead p).2.setEngine e) := by
  have hdraw : (s.setEngine e).draw = (s.draw.1, s.draw.2.setEngine e) := by
    simp only [State.draw, State.setEngine]
    split <;> rfl
  have hlevel : (s.setEngine e).dataLevel = (s.dataLevel.1, s.dataLevel.2.setEngine e) := by
    simp only [State.dataLevel, State.setEngine_env, State.setEngine_chips, hdraw]
    split
    · rfl
    · split <;> rfl
  rw [State.pinRead, hlevel]
  rfl

theorem State.setEngine_of_eq {s : State} {e : Engine} (h : s.engine = e) : s.setEngine e = s := by
  subst h
  rfl

/-- Where the sequencer goes on in iteration `i` of `w`, or after the last one (41_sampling R132). -/
def loopPos (w i : Nat) : SeqPos := if i < w then .readBit else .store

section
variable {p : Pins} {s : State} (h : Unattended p s) (k : Nat) (op : SampleOp) (acc : Bitfield) (i : Nat)
include h

theorem runSteps_busy (f : InFlight) : runSteps (k + 1) (s.setEngine (.busy f)) =
    runSteps k (runPosition p f (s.setEngine (.busy f))) := by
  have hstep : step (s.setEngine (.busy f)) = .next (runPosition p f (s.setEngine (.busy f))) := by
    rw [step_of_busy rfl, ← advanceSample_of_pins (s := s.setEngine (.busy f)) h.pins]
    simp only [stepBusy, State.setEngine_inbox, h.inbox]
  rw [runSteps, hstep]

/-- A position whose event is `e` and whose successor is `pos'`. -/
theorem runSteps_event {op : SampleOp} {acc : Bitfield} {i : Nat} {pos pos' : SeqPos} (e : Event)
    (hpos : runPosition p ⟨op, pos, acc, i⟩ (s.setEngine (.busy ⟨op, pos, acc, i⟩)) =
      (s.emit p e).setEngine (.busy ⟨op, pos', acc, i⟩)) :
    runSteps (k + 1) (s.setEngine (.busy ⟨op, pos, acc, i⟩)) =
      runSteps k ((s.emit p e).setEngine (.busy ⟨op, pos', acc, i⟩)) := by
  rw [runSteps_busy h, hpos]

/-- The load phase, event by event (41_sampling R131). -/
theorem runSteps_loadPhase : runSteps (k + 5) (s.setEngine (.busy ⟨op, .clkenHigh, acc, i⟩)) =
    runSteps k ((loadPhase p s).setEngine (.busy ⟨op, .readBit, acc, i⟩)) := by
  have h1 := h.emit (.pinWrite p.clken .high)
  have h2 := h1.emit (.pinWrite p.load .low)
  have h3 := h2.emit (.sleep s.pw)
  have h4 := h3.emit (.pinWrite p.load .high)
  rw [runSteps_event h (k + 4) _ rfl, runSteps_event h1 (k + 3) _ rfl,
    runSteps_event h2 (k + 2) (.sleep s.pw) rfl, runSteps_event h3 (k + 1) _ rfl,
    runSteps_event h4 k _ rfl, loadPhase]

/-- Steps 4a and 4b of an iteration (41_sampling R132). -/
theorem runSteps_readBit : runSteps (k + 1) (s.setEngine (.busy ⟨op, .readBit, acc, i⟩)) =
    runSteps k ((s.pinRead p).2.setEngine (.busy ⟨op, .clockHigh,
      insertBit acc (s.chips.dataWidth - 1 - i) (lvl (s.pinRead p).1), i⟩)) := by
  rw [runSteps_busy h, runPosition, takeBit, pinRead_setEngine]
  rfl

/-- The clock pulse of an iteration, event by event (41_sampling R132). -/
theorem runSteps_clockPulse : runSteps (k + 3) (s.setEngine (.busy ⟨op, .clockHigh, acc, i⟩)) =
    runSteps k ((clockPulse p s).setEngine (.busy ⟨op, loopPos s.chips.dataWidth (i + 1), acc, i + 1⟩)) := by
  have h1 := h.emit (.pinWrite p.clk .high)
  have h2 := h1.emit (.sleep s.pw)
  rw [runSteps_event h (k + 2) _ rfl, runSteps_event h1 (k + 1) (.sleep s.pw) rfl, runSteps_busy h2]
  rfl

/-- Step 5 and the response (41_sampling R130, R136). -/
theorem runSteps_store : runSteps 1 (s.setEngine (.busy ⟨op, .store, acc, i⟩)) =
    .next (((s.setCur acc).setEngine .idle).respond (sampleResult op ((s.setCur acc).setEngine .idle))) := by
  rw [runSteps_busy h]
  rfl

end

/-- The shift loop, event by event, from iteration `i` with `n` left (41_sampling R132). -/
theorem runSteps_shiftLoop (p : Pins) (op : SampleOp) (k n : Nat) : ∀ (acc : Bitfield) (i : Nat)
    {s : State}, Unattended p s → i + n = s.chips.dataWidth →
    runSteps (k + 4 * n) (s.setEngine (.busy ⟨op, loopPos s.chips.dataWidth i, acc, i⟩)) =
      runSteps k ((shiftLoop p n acc s).2.setEngine
        (.busy ⟨op, .store, (shiftLoop p n acc s).1, s.chips.dataWidth⟩)) := by
  induction n with
  | zero =>
    intro acc i s _ hi
    rw [loopPos, if_neg (by omega), ← hi]
    rfl
  | succ n ih =>
    intro acc i s h hi
    have hchips : (clockPulse p (s.pinRead p).2).chips = s.chips := by simp
    have hnext := ih (insertBit acc n (lvl (s.pinRead p).1)) (i + 1) h.pinRead.clockPulse
      (by rw [hchips]; omega)
    rw [hchips] at hnext
    rw [loopPos, if_pos (by omega), show k + 4 * (n + 1) = k + 4 * n + 3 + 1 by omega,
      runSteps_readBit h, runSteps_clockPulse h.pinRead, pinRead_chips,
      show s.chips.dataWidth - 1 - i = n by omega, hnext]
    rfl

/-- A sampling operation left to itself does event by event what it does in one step (41_sampling R135). -/
theorem runSteps_sample {p : Pins} {s : State} (h : Unattended p s) (he : s.engine = .idle)
    (op : SampleOp) :
    runSteps (6 + 4 * s.chips.dataWidth)
      ((s.setLast s.curVal).setEngine (.busy ⟨op, .clkenHigh, 0, 0⟩)) = runSample op s := by
  have h1 : Unattended p (s.setLast s.curVal) := ⟨h.pins, h.inbox⟩
  have hw := s.chips.dataWidth_bounds
  have hloop := runSteps_shiftLoop p op 1 s.chips.dataWidth 0 0 h1.loadPhase (by simp)
  rw [loadPhase_chips, State.setLast_chips, loopPos, if_pos (by omega)] at hloop
  have hidle : (sample p s).setEngine .idle = sample p s :=
    State.setEngine_of_eq ((sample_engine p s).trans he)
  rw [show 6 + 4 * s.chips.dataWidth = 1 + 4 * s.chips.dataWidth + 5 by omega, runSteps_loadPhase h1,
    hloop, runSteps_store (h1.loadPhase.shiftLoop _ _), runSample_of_pins h.pins, ← hidle]
  rfl

end Machine

open Machine

/-- Settles O37: the idle port decodes the word and hands the operation to exec. -/
theorem stepRunsTheDecodedCommand : Obligations.StepRunsTheDecodedCommand := by
  intro s w i rest he hin hw
  rw [step_of_command he hin, issue_of_op hw]
  rfl

/-- Settles O38: a word of 40 bits is placed unchanged, and `decode_encode` says what it is. -/
theorem placedWordIsRunNext : Obligations.PlacedWordIsRunNext := by
  intro s i
  have hw : BitVec.ofNat 40 ((encode i).toNat % 2 ^ 40) = encode i := by
    rw [Nat.mod_eq_of_lt (encode i).isLt, BitVec.ofNat_toNat, BitVec.setWidth_eq]
  rw [State.withFetchWord, hw, step_of_command rfl rfl, issue_of_op (decode_encode i)]
  rfl

/-- Settles O55: the port decodes the posted word, and only READ and UPDATE are begun instead of
executed. -/
theorem stepBeginsAPostedCommand : Obligations.StepBeginsAPostedCommand := by
  intro s w i rest he hin hw
  refine ⟨fun hop => ?_, fun op hop hb => ?_, fun op hop hp => ?_⟩
  · rw [step_of_post he hin, post_of_sampleOp_none hw hop]
    rfl
  · rw [step_of_post he hin, post_of_sampleOp hw hop]
    exact startSample_of_not_begun (s := s.setInbox rest) hb op
  · rw [step_of_posted_sample he hin hw hop hp]
    simp only [State.setEngine, State.setLast, State.setInbox, State.curVal,
      ChipCount.toStorage_toStorage]

/-- Settles O53: `runSteps_sample`, after the step that takes the word. -/
theorem splitSampleEqualsAtomic : Obligations.SplitSampleEqualsAtomic := by
  intro s i op he hin hop hpins
  obtain ⟨p, hp⟩ := Option.isSome_iff_exists.1 hpins
  have h : Unattended p (s.setInbox []) := ⟨hp, rfl⟩
  refine ⟨_, step_of_posted_sample he hin (decode_encode i) hop hpins, rfl, ?_⟩
  have hrun := runSteps_sample h he op
  rw [← exec_eq_runSample hop] at hrun
  exact hrun

/-- Settles O54: the step runs one position, which is step 5 (`runPosition_store`) or one event
(`runPosition_event`), at the host's list without its wait. -/
theorem inFlightSampleIsNotVisible : Obligations.InFlightSampleIsNotVisible := by
  intro s f he hpins hin
  obtain ⟨p, hp⟩ := Option.isSome_iff_exists.1 hpins
  have hwait (rest : List HostAction) (h : s.inbox = .wait :: rest) : afterWait s.inbox = rest := by
    rw [h, afterWait]
  refine ⟨_, step_of_busy_of_quiet he hp hin, ?_⟩
  by_cases hf : f.pos = .store
  · obtain ⟨r, hrun⟩ := runPosition_store p (s.setInbox (afterWait s.inbox)) hf
    rw [hrun]
    exact ⟨fun h => absurd hf h, fun _ => ⟨rfl, rfl, rfl, rfl, r, rfl⟩, rfl, rfl, rfl, rfl, rfl, rfl, rfl,
      rfl, .refl _, hwait, afterWait_of_ne_wait⟩
  · obtain ⟨e, g, o, env, a, d, hrun, hop, henv⟩ :=
      runPosition_event p (s.setInbox (afterWait s.inbox)) hf
    rw [hrun]
    exact ⟨fun _ => ⟨rfl, rfl, rfl, ⟨e, rfl⟩, g, rfl, hop⟩, fun h => absurd h hf, rfl, rfl, rfl, rfl, rfl,
      rfl, rfl, rfl, henv, hwait, afterWait_of_ne_wait⟩

end Sys2Proof
end
